-- ==== Sys2Proof/Word.lean ====
section
/-! DEFINITION. The words of the K1 frame codec block: a byte, a nibble, and a byte buffer. -/

namespace Sys2Proof

/-- Every frame field, data byte and coordinate byte is one byte (R6, `BYTE`). -/
abbrev Byte := BitVec 8

/-- STATUS, ROW_OUT and COL_OUT are 4-bit registers (R22, R29, R30). -/
abbrev Nibble := BitVec 4

/-- One of the four byte-indexed spaces of R50: the listed (index, byte) pairs. An unlisted index
reads `0x00` (R42 for FRAME and RESP; log 4 for the input arrays). -/
abbrev Memory := List Host.Cell

end Sys2Proof
end

