-- ==== Sys2Proof/Config.lean ====
section
/-! DEFINITION. The fixed parameters of R6, the address space of R51, and everything the spec leaves
open: the parameters of R7 and the free values. An `opaque` constant has no body, so no proof can
learn its value. -/

namespace Sys2Proof

/-- R6 `STX`: the first byte of every K1 frame. -/
abbrev Config.stx : Byte := 0x35#8
/-- R6 `MAX_DATA`: data bytes per message. -/
abbrev Config.maxData : Nat := 250
/-- R6 `OVERHEAD`: STX, controller_id, frame_length, command, checksum. -/
abbrev Config.overhead : Nat := 5
/-- R6 `MIN_VALIDATED_FRAME`: shortest response on the validated path. -/
abbrev Config.minValidatedFrame : Nat := 5
/-- R6 `BUF_SIZE`: bytes in each of FRAME, RESP, DATA_IN, RX_IN; indices are 0 to 254. -/
abbrev Config.bufSize : Nat := 255
/-- R6 `GRID_ROWS`. -/
abbrev Config.gridRows : Nat := 8
/-- R6 `GRID_COLS`. -/
abbrev Config.gridCols : Nat := 12

/-- R51: the global broadcast address. -/
abbrev Config.idBroadcast : Byte := 0x00#8
/-- R51: relay controllers are at base `0x26 + id`, `id` 0 or 1. -/
def Config.idRelay (id : BitVec 1) : Byte := 0x26#8 + id.setWidth 8
/-- R51: the motor-array controller. -/
abbrev Config.idMotor : Byte := 0x30#8

/-- R78: the positive ack sentinel, defined but enforced by no operation. -/
abbrev Config.positiveAck : Byte := 0x00#8
/-- R78: the negative ack sentinel, defined but enforced by no operation. -/
abbrev Config.negativeAck : Byte := 0xFF#8

/-- Every error kind of the library: the STATUS values of R230, and the kinds of R231 that no
operation of the block produces. A pseudo-instruction ends with one of these. -/
inductive ErrorKind where
  /-- A STATUS value of R230 (`0` is OK). -/
  | status (code : Nibble)
  /-- R231 "out-of-memory". -/
  | outOfMemory
  /-- R231 "transport-init-failed". -/
  | transportInitFailed
  /-- R231 "set-interface-failed". -/
  | setInterfaceFailed
  /-- R231 "open-failed". -/
  | openFailed
  /-- R231 "reset-failed". -/
  | resetFailed
  /-- R231 "set-baud-failed". -/
  | setBaudFailed
  /-- R231 "set-line-props-failed". -/
  | setLinePropsFailed
  /-- R231 "set-flow-ctrl-failed". -/
  | setFlowCtrlFailed
  /-- R231 "write-failed". -/
  | writeFailed
  /-- R231 "read-failed". -/
  | readFailed
  /-- R231 "purge-failed". -/
  | purgeFailed
  deriving DecidableEq, Repr, Inhabited

/-- What the transport and the firmware behind it do at one exchange (R60, R62): deliver bytes, or
fail at one of the exchange's three transport calls (R231). Log 14. -/
inductive Reply where
  /-- The bytes that arrive in the response window. -/
  | bytes (raw : List Byte)
  /-- The purge before the write fails. -/
  | purgeFails
  /-- The write of the frame fails. -/
  | writeFails
  /-- The read after the wait fails. -/
  | readFails
  deriving DecidableEq, Repr, Inhabited

/-- Open part of `LATENCY` (R7, D2): LATENCY is this plus one, so at least one cycle. -/
opaque Config.latencyBeyondOne : Nat

/-- R7 `LATENCY`, the cycles from issue to DONE. No rule's result depends on it (R268). -/
def Config.latency : Nat := Config.latencyBeyondOne + 1

/-- R7 `ERRCODE_MAP`, the library's numeric code of an error kind; the spec lists no number. -/
opaque Config.errcodeMap : ErrorKind → Int

/-- FREE VALUE (R26, R146, I3; log 5): byte `index` of RESP after the failed DECODE whose draw
number is `draw`. -/
opaque Config.respAfterFailure : (draw index : Nat) → Byte

/-- FREE VALUE (R62, I7; log 14): what the transport does at an exchange for which the state lists
no reply. -/
opaque Config.unlistedReply : (draw : Nat) → Reply

/-- FREE VALUE (R264, I9; log 10): what the host's read number `n` returns while an operation is in
progress. -/
opaque Config.readInProgress : (n : Nat) → Byte

end Sys2Proof
end

