-- ==== Sys2Proof/Machine/Flags.lean ====
section
/-! DEFINITION. The block's flag-like state (R43): the STATUS codes of R230, and COORD_VALID (R31).
The bit-fields of the coordinate byte stand here with it. -/

namespace Sys2Proof.Machine

/-- R230: success. -/
def statusOk : Nibble := 0#4
/-- R230, R232. -/
def statusInvalidChecksum : Nibble := 1#4
/-- R230, R233: a defined code that no operation raises. -/
def statusNegativeAck : Nibble := 2#4
/-- R230, R234. -/
def statusMalformed : Nibble := 3#4
/-- R230, R235. -/
def statusInvalidSource : Nibble := 4#4
/-- R230, R236. -/
def statusInvalidLength : Nibble := 5#4
/-- R230, R237. -/
def statusInvalidMotorCoordinates : Nibble := 6#4

/-- `b[7:4]` (R8). -/
def highNibble (b : Byte) : Nibble := b.extractLsb' 4 4

/-- `b[3:0]` (R8). -/
def lowNibble (b : Byte) : Nibble := b.extractLsb' 0 4

/-- COORD_VALID of an unpacked byte (R31, R175): it names a motor of the 8 by 12 grid. -/
def coordValidOf (b : Byte) : Bool :=
  decide (1 ≤ (highNibble b).toNat) && decide ((highNibble b).toNat ≤ Config.gridRows) &&
    decide (1 ≤ (lowNibble b).toNat) && decide ((lowNibble b).toNat ≤ Config.gridCols)

end Sys2Proof.Machine
end

