-- ==== Sys2Proof/Machine/Memory.lean ====
section
/-! DEFINITION. The named operations over the byte buffers of R50: reads and writes of one byte, and
of a run of bytes in wire order (R53). A buffer is kept in one canonical form: indices strictly
rising and below 255, no listed byte equal to `0x00`, which is what an unlisted index reads (log 4). -/

namespace Sys2Proof.Machine

/-- `BUF[i]` (R11). No read has a side effect (R57). -/
def Memory.read : Memory → Nat → Byte
  | [], _ => 0
  | (a, v) :: m, i => if a = i then v else Memory.read m i

/-- List the pair at its place by index. -/
def Memory.insert (i : Nat) (v : Byte) : Memory → Memory
  | [] => [(i, v)]
  | (a, w) :: m => if i < a then (i, v) :: (a, w) :: m else (a, w) :: Memory.insert i v m

/-- `BUF[i] <- v` (R11). An index at or beyond 255 names no byte (R50), so nothing is written. -/
def Memory.write (m : Memory) (i : Nat) (v : Byte) : Memory :=
  if i < Config.bufSize then
    let rest := m.filter (fun c => c.1 != i)
    if v = 0 then rest else Memory.insert i v rest
  else m

/-- Write the bytes at the indices from `i` on, in order. -/
def Memory.writeBytes (m : Memory) (i : Nat) : List Byte → Memory
  | [] => m
  | b :: bs => Memory.writeBytes (Memory.write m i b) (i + 1) bs

/-- `BUF[0 .. n]`, the half-open range of R9. -/
def Memory.bytes (m : Memory) (n : Nat) : List Byte :=
  (List.range n).map (Memory.read m)

/-- The buffer that holds these bytes from index 0 and `0x00` everywhere else. -/
def Memory.ofBytes (l : List Byte) : Memory := Memory.writeBytes [] 0 l

/-- Canonical form of the entries with index at least `lo`. -/
def Memory.wfFrom : Nat → Memory → Bool
  | _, [] => true
  | lo, (a, v) :: m => decide (lo ≤ a) && decide (a < Config.bufSize) && (v != 0) && Memory.wfFrom (a + 1) m

/-- The buffer is in canonical form. -/
def Memory.wf (m : Memory) : Bool := Memory.wfFrom 0 m

end Sys2Proof.Machine
end

