-- ==== Sys2Proof/Syntax.lean ====
section
/-! DEFINITION. The instruction set: one constructor per row of spec/opcode_table.json, with the
operands of the assembler syntax (R82, R83); and the two forms an instruction is encoded in, the
operand ports of an operation (R32 to R37) and the key of a message call (R84). -/

namespace Sys2Proof

/-- The operations of R70 and the pseudo-instructions of R83. -/
inductive Instr where
  /-- `ENCODE ctrl_id, cmd, [d0, ...]` (R120). -/
  | encode (ctrlId cmd : Byte) (data : List Byte)
  /-- `DECODE ctx_id, [r0, ...]` (R140). -/
  | decode (ctx : Byte) (raw : List Byte)
  /-- `XORFOLD [r0, ...]` (R102). -/
  | xorfold (bytes : List Byte)
  /-- `PACK row, col` (R170). -/
  | pack (row col : Byte)
  /-- `UNPACK byte` (R175). -/
  | unpack (b : Byte)
  /-- OP `101`, reserved (R71). -/
  | reserved101
  /-- OP `110`, reserved (R71). -/
  | reserved110
  /-- OP `111`, reserved (R71). -/
  | reserved111
  /-- `RELAY_PING id` (R191). -/
  | relayPing (id : BitVec 1)
  /-- `RELAY_VERSION id` (R192). -/
  | relayVersion (id : BitVec 1)
  /-- `RELAY_RESET id` (R193). -/
  | relayReset (id : BitVec 1)
  /-- `RELAY_SET id, on` (R194). -/
  | relaySet (id : BitVec 1) (on : Bool)
  /-- `MOTOR_PING` (R195). -/
  | motorPing
  /-- `MOTOR_VERSION` (R196). -/
  | motorVersion
  /-- `MOTOR_RESET` (R197). -/
  | motorReset
  /-- `MOTOR_STATUS` (R198). -/
  | motorStatus
  /-- `MOTOR_STOP_ALL` (R199). -/
  | motorStopAll
  /-- `MOTOR_RUN row, col` (R200). -/
  | motorRun (row col : Byte)
  /-- `MOTOR_PAIR_RUN row, c1, c2` (R201). -/
  | motorPairRun (row c1 c2 : Byte)
  /-- `MOTOR_OPTO_LINE_STATUS` (R202). -/
  | motorOptoLineStatus
  /-- `GLOBAL_RESET` (R203). -/
  | globalReset
  deriving DecidableEq, Repr

/-- The operand ports of R32 to R37. -/
structure Ports where
  /-- `OP[2:0]` (R32). -/
  op : BitVec 3
  /-- `CTRL_ID[7:0]` (R33). -/
  ctrlId : Byte
  /-- `CMD[7:0]` (R34). -/
  cmd : Byte
  /-- `DLEN[7:0]` (R35). -/
  dlen : Byte
  /-- `DATA_IN[0 .. 255]` (R35). -/
  dataIn : Memory
  /-- `RX_COUNT[7:0]` (R36). -/
  rxCount : Byte
  /-- `RX_IN[0 .. 255]` (R36). -/
  rxIn : Memory
  /-- `ROW_IN[7:0]` (R37). -/
  rowIn : Byte
  /-- `COL_IN[7:0]` (R37). -/
  colIn : Byte
  /-- `COORD_IN[7:0]` (R37). -/
  coordIn : Byte
  deriving DecidableEq, Repr

/-- Every port at zero (log 3). -/
def Ports.zero : Ports :=
  { op := 0, ctrlId := 0, cmd := 0, dlen := 0, dataIn := [], rxCount := 0, rxIn := [],
    rowIn := 0, colIn := 0, coordIn := 0 }

/-- A call of a message pseudo-instruction: the 24-bit key of R84 and up to three argument bytes,
in the order of the syntax of R83 (log 13). -/
structure MsgCall where
  /-- The key `K` of R84. -/
  key : BitVec 24
  /-- `on` of RELAY_SET; `row` of MOTOR_RUN and MOTOR_PAIR_RUN. -/
  arg0 : Byte
  /-- `col` of MOTOR_RUN; `c1` of MOTOR_PAIR_RUN. -/
  arg1 : Byte
  /-- `c2` of MOTOR_PAIR_RUN. -/
  arg2 : Byte
  deriving DecidableEq, Repr

/-- The form an instruction is issued in. -/
inductive Encoded where
  /-- An operation word: `OP` plus the operand ports (R70, R72). -/
  | operation (p : Ports)
  /-- A message call (R83, R84). -/
  | message (c : MsgCall)
  deriving DecidableEq, Repr

end Sys2Proof
end

