-- ==== Sys2Proof/Machine/Operands.lean ====
section
/-! DEFINITION. The operand forms: the byte lists sampled from the input arrays (R35, R36), how the
host drives the ports for an operation (R82), and the motor coordinate (R79, R170, R175). -/

namespace Sys2Proof.Machine

/-- `DATA_IN[0 .. DLEN]` (R35). -/
def portData (p : Ports) : List Byte := Memory.bytes p.dataIn p.dlen.toNat

/-- `RX_IN[0 .. RX_COUNT]` (R36). -/
def portRx (p : Ports) : List Byte := Memory.bytes p.rxIn p.rxCount.toNat

/-- Ports set for `ENCODE ctrl_id, cmd, [data]` (R82); the ports it does not name stay. -/
def driveEncode (ctrlId cmd : Byte) (data : List Byte) (p : Ports) : Ports :=
  { p with op := 0b000#3, ctrlId := ctrlId, cmd := cmd, dlen := BitVec.ofNat 8 data.length,
           dataIn := Memory.writeBytes p.dataIn 0 data }

/-- Bytes received into the input array (R36, R60): `RX_COUNT` is the returned count. -/
def driveReceived (raw : List Byte) (p : Ports) : Ports :=
  { p with rxCount := BitVec.ofNat 8 raw.length, rxIn := Memory.writeBytes p.rxIn 0 raw }

/-- Ports set for `DECODE ctx_id, raw`, the bytes being in RX_IN already (R82). -/
def driveDecode (ctx : Byte) (p : Ports) : Ports := { p with op := 0b001#3, ctrlId := ctx }

/-- Ports set for `XORFOLD`, the bytes being in RX_IN already (R82). -/
def driveXorfold (p : Ports) : Ports := { p with op := 0b010#3 }

/-- Ports set for `PACK row, col` (R82). -/
def drivePack (row col : Byte) (p : Ports) : Ports :=
  { p with op := 0b011#3, rowIn := row, colIn := col }

/-- Ports set for `UNPACK byte` (R82). -/
def driveUnpack (b : Byte) (p : Ports) : Ports := { p with op := 0b100#3, coordIn := b }

/-- R171: the range check on the unsigned 8-bit operands. -/
def coordInRange (row col : Byte) : Bool :=
  decide (row.toNat < Config.gridRows) && decide (col.toNat < Config.gridCols)

/-- R79: `((row+1) << 4) | (col+1)`. -/
def coordByte (row col : Byte) : Byte := ((row + 1) <<< 4) ||| (col + 1)

/-- R29: `(b[7:4] - 1) mod 16`. -/
def coordRow (b : Byte) : Nibble := highNibble b - 1

/-- R30: `(b[3:0] - 1) mod 16`. -/
def coordCol (b : Byte) : Nibble := lowNibble b - 1

end Sys2Proof.Machine
end

