-- ==== Sys2Proof/WellFormed.lean ====
section
/-! DEFINITION. Which instructions the operand ports can hold: a byte list of at most 255 bytes
(R35, R36, R50). Every other operand fits its field by its type. -/

namespace Sys2Proof

/-- The byte list of an operation fits the input array and its 8-bit count. -/
def wellFormed : Instr → Bool
  | .encode _ _ data => data.length ≤ Config.bufSize
  | .decode _ raw => raw.length ≤ Config.bufSize
  | .xorfold bytes => bytes.length ≤ Config.bufSize
  | .pack _ _ => true
  | .unpack _ => true
  | .reserved101 => true
  | .reserved110 => true
  | .reserved111 => true
  | .relayPing _ => true
  | .relayVersion _ => true
  | .relayReset _ => true
  | .relaySet _ _ => true
  | .motorPing => true
  | .motorVersion => true
  | .motorReset => true
  | .motorStatus => true
  | .motorStopAll => true
  | .motorRun _ _ => true
  | .motorPairRun _ _ _ => true
  | .motorOptoLineStatus => true
  | .globalReset => true

end Sys2Proof
end

