-- ==== Sys2Proof/Decode.lean ====
section
/-! DEFINITION. The decoder, total on every operation word and every message call, and the encoder.
An operation word is `OP[2:0]` plus the operand ports (R70, R72), and every value of `OP` is a row of
the table. A message is found by its 24-bit key (R84), as the masks and patterns of
spec/opcode_table.json give it. -/

namespace Sys2Proof
open Sys2Proof.Machine

/-- Why the decoder rejects a message call. -/
inductive DecodeError where
  /-- No row of the table has this key; a relay id outside 0 and 1 is among these (I8). -/
  | unknownMessage (key : BitVec 24)
  /-- RELAY_SET with an `on` byte that is neither `0x00` nor `0x01` (R190). -/
  | badRelaySwitch (on : Byte)
  deriving DecidableEq, Repr

/-- The operation that the ports ask for (R70). The operands it does not list are ignored. -/
def decodeOperation (p : Ports) : Instr :=
  match p.op.toNat with
  | 0 => .encode p.ctrlId p.cmd (portData p)
  | 1 => .decode p.ctrlId (portRx p)
  | 2 => .xorfold (portRx p)
  | 3 => .pack p.rowIn p.colIn
  | 4 => .unpack p.coordIn
  | 5 => .reserved101
  | 6 => .reserved110
  | _ => .reserved111

/-- `id` of a relay message: `K[16]`. -/
def keyRelayId (key : BitVec 24) : BitVec 1 := key.extractLsb' 16 1

/-- RELAY_SET from its call: `on` is `0x00` off, `0x01` on (R190, R194). -/
def decodeRelaySet (c : MsgCall) : Except DecodeError Instr :=
  if c.arg0 = 0x00#8 then .ok (.relaySet (keyRelayId c.key) false)
  else if c.arg0 = 0x01#8 then .ok (.relaySet (keyRelayId c.key) true)
  else .error (.badRelaySwitch c.arg0)

/-- A row of the message table: the key bits under `mask` are `pattern`. -/
structure MsgRow where
  /-- `match` of the row. -/
  pattern : BitVec 24
  /-- `mask` of the row. -/
  mask : BitVec 24
  /-- The instruction of the row, with the call's operands. -/
  build : MsgCall → Except DecodeError Instr

/-- The K1_MSG rows of spec/opcode_table.json, in the table's order. -/
def messageTable : List MsgRow :=
  [ ⟨0x260500#24, 0xFEFFFF#24, fun c => .ok (.relayPing (keyRelayId c.key))⟩,
    ⟨0x260502#24, 0xFEFFFF#24, fun c => .ok (.relayVersion (keyRelayId c.key))⟩,
    ⟨0x260505#24, 0xFEFFFF#24, fun c => .ok (.relayReset (keyRelayId c.key))⟩,
    ⟨0x260611#24, 0xFEFFFF#24, decodeRelaySet⟩,
    ⟨0x300500#24, 0xFFFFFF#24, fun _ => .ok .motorPing⟩,
    ⟨0x300502#24, 0xFFFFFF#24, fun _ => .ok .motorVersion⟩,
    ⟨0x300505#24, 0xFFFFFF#24, fun _ => .ok .motorReset⟩,
    ⟨0x300510#24, 0xFFFFFF#24, fun _ => .ok .motorStatus⟩,
    ⟨0x300512#24, 0xFFFFFF#24, fun _ => .ok .motorStopAll⟩,
    ⟨0x300613#24, 0xFFFFFF#24, fun c => .ok (.motorRun c.arg0 c.arg1)⟩,
    ⟨0x300713#24, 0xFFFFFF#24, fun c => .ok (.motorPairRun c.arg0 c.arg1 c.arg2)⟩,
    ⟨0x300515#24, 0xFFFFFF#24, fun _ => .ok .motorOptoLineStatus⟩,
    ⟨0x000601#24, 0xFFFFFF#24, fun _ => .ok .globalReset⟩ ]

/-- The pseudo-instruction that a call asks for (R84). -/
def decodeMessage (c : MsgCall) : Except DecodeError Instr :=
  match messageTable.find? (fun r => c.key &&& r.mask == r.pattern) with
  | some r => r.build c
  | none => .error (.unknownMessage c.key)

/-- The decoder. -/
def decode : Encoded → Except DecodeError Instr
  | .operation p => .ok (decodeOperation p)
  | .message c => decodeMessage c

/-- A call with no argument. -/
def plainCall (key : BitVec 24) : MsgCall := { key := key, arg0 := 0, arg1 := 0, arg2 := 0 }

/-- The key of a relay message, whose controller_id is `0x26 + id` (R51, R84). -/
def relayKey (id : BitVec 1) (frameLength cmd : Byte) : BitVec 24 :=
  Config.idRelay id ++ frameLength ++ cmd

/-- The encoder: the operation word (R70, R82) or the message key (R84, R190) of an instruction.
Ports and arguments the instruction does not name are zero. -/
def encode : Instr → Encoded
  | .encode ctrlId cmd data => .operation (driveEncode ctrlId cmd data Ports.zero)
  | .decode ctx raw => .operation (driveDecode ctx (driveReceived raw Ports.zero))
  | .xorfold bytes => .operation (driveXorfold (driveReceived bytes Ports.zero))
  | .pack row col => .operation (drivePack row col Ports.zero)
  | .unpack b => .operation (driveUnpack b Ports.zero)
  | .reserved101 => .operation { Ports.zero with op := 0b101#3 }
  | .reserved110 => .operation { Ports.zero with op := 0b110#3 }
  | .reserved111 => .operation { Ports.zero with op := 0b111#3 }
  | .relayPing id => .message (plainCall (relayKey id 0x05#8 0x00#8))
  | .relayVersion id => .message (plainCall (relayKey id 0x05#8 0x02#8))
  | .relayReset id => .message (plainCall (relayKey id 0x05#8 0x05#8))
  | .relaySet id on => .message { plainCall (relayKey id 0x06#8 0x11#8) with arg0 := if on then 0x01#8 else 0x00#8 }
  | .motorPing => .message (plainCall 0x300500#24)
  | .motorVersion => .message (plainCall 0x300502#24)
  | .motorReset => .message (plainCall 0x300505#24)
  | .motorStatus => .message (plainCall 0x300510#24)
  | .motorStopAll => .message (plainCall 0x300512#24)
  | .motorRun row col => .message { plainCall 0x300613#24 with arg0 := row, arg1 := col }
  | .motorPairRun row c1 c2 => .message { key := 0x300713#24, arg0 := row, arg1 := c1, arg2 := c2 }
  | .motorOptoLineStatus => .message (plainCall 0x300515#24)
  | .globalReset => .message (plainCall 0x000601#24)

/-- The form of the table's bits: rows of at most one byte are operation words, whose only bits are
`OP[2:0]` (R72); wider rows are message keys, and the argument bytes count on from bit 24. -/
def tableForm (nbits w : Nat) : Encoded :=
  if nbits ≤ 8 then .operation { Ports.zero with op := BitVec.ofNat 3 w }
  else .message { key := BitVec.ofNat 24 w, arg0 := BitVec.ofNat 8 (w >>> 24),
                  arg1 := BitVec.ofNat 8 (w >>> 32), arg2 := BitVec.ofNat 8 (w >>> 40) }

/-- What the decoder reads from an instruction whose bits are `w`, numbered as the table numbers
them. -/
def decodeTableWord (nbits w : Nat) : Option Instr :=
  match decode (tableForm nbits w) with
  | .ok i => some i
  | .error _ => none

/-- The key of a frame: `K = (F[1] << 16) | (F[2] << 8) | F[3]` (R84). -/
def frameKey (f : List Byte) : BitVec 24 :=
  ((f.getD 1 0).setWidth 24 <<< 16) ||| ((f.getD 2 0).setWidth 24 <<< 8) ||| (f.getD 3 0).setWidth 24

/-- The pseudo-instruction whose request frame this is, if the message table has it (R84): the key
finds the row, and `F[4]`, `F[5]` give the operands as the rows' fields say. A payload byte that no
operand of the row encodes to gives none (log 18). -/
def messageOfFrame (f : List Byte) : Option Instr :=
  match decodeMessage (plainCall (frameKey f)) with
  | .ok (.relaySet id _) =>
      if f.getD 4 0 = 0x00#8 then some (.relaySet id false)
      else if f.getD 4 0 = 0x01#8 then some (.relaySet id true) else none
  | .ok (.motorRun _ _) =>
      if coordValidOf (f.getD 4 0) then
        some (.motorRun ((coordRow (f.getD 4 0)).setWidth 8) ((coordCol (f.getD 4 0)).setWidth 8))
      else none
  | .ok (.motorPairRun _ _ _) =>
      if coordValidOf (f.getD 4 0) && coordValidOf (f.getD 5 0) &&
          highNibble (f.getD 4 0) == highNibble (f.getD 5 0) then
        some (.motorPairRun ((coordRow (f.getD 4 0)).setWidth 8) ((coordCol (f.getD 4 0)).setWidth 8)
          ((coordCol (f.getD 5 0)).setWidth 8))
      else none
  | .ok .globalReset => if f.getD 4 0 = 0xFF#8 then some .globalReset else none
  | .ok i => some i
  | .error _ => none

end Sys2Proof
end

