-- ==== Sys2Proof/Machine/State.lean ====
section
/-! DEFINITION. Everything the spec gives the machine, as plain data: the result registers and
buffers (R22 to R31), the handshake (R39), the input ports (R32 to R37), and the message layer with
the transport's inputs and outputs (R60, R190 to R208). -/

namespace Sys2Proof.Machine

/-- One entry of the active-motor list of MOTOR_STATUS (R205): what UNPACK gave for one byte. With
`valid` false the entry carries no meaning (I4). -/
structure Motor where
  /-- ROW_OUT of the entry. -/
  row : Nibble
  /-- COL_OUT of the entry. -/
  col : Nibble
  /-- COORD_VALID of the entry. -/
  valid : Bool
  deriving DecidableEq, Repr

/-- The whole state. The operand ports are inputs (R20); they stand here because a step reads them. -/
structure State where
  /-- STATUS, the result code of the last legal operation (R22, R230). -/
  status : Nibble
  /-- CSUM, the checksum of the last ENCODE or XORFOLD (R23). -/
  csum : Byte
  /-- FRAME, the outbound frame buffer (R24). -/
  frame : Memory
  /-- FRAME_LEN (R25). -/
  frameLen : Byte
  /-- RESP, the response data buffer (R26). -/
  resp : Memory
  /-- RESP_LEN (R27). -/
  respLen : Byte
  /-- COORD (R28). -/
  coord : Byte
  /-- ROW_OUT (R29). -/
  rowOut : Nibble
  /-- COL_OUT (R30). -/
  colOut : Nibble
  /-- COORD_VALID (R31). -/
  coordValid : Bool
  /-- DONE (R39, R42). -/
  done : Bool
  /-- The operation whose operands are sampled and which has not raised DONE (R38, R260, R263). -/
  inFlight : Option Instr
  /-- REQ, the host's request line (R39). When it falls is the model's choice (log 23). -/
  req : Bool
  /-- The reset line (R260). -/
  rst : Bool
  /-- The operand ports (R32 to R37). -/
  ports : Ports
  /-- The pseudo-instruction the host calls (R83), if one waits. -/
  call : Option MsgCall
  /-- The status the last pseudo-instruction ended with (44_k1_messages.md, "Stop on failure"). -/
  apiStatus : ErrorKind
  /-- Output of RELAY_VERSION and MOTOR_VERSION: the version string's bytes (R204). -/
  version : List Byte
  /-- Output of MOTOR_STATUS: `current_mA`, a `u16` (R206). -/
  currentMA : BitVec 16
  /-- Output of MOTOR_STATUS: the active-motor list (R205). -/
  active : List Motor
  /-- Output of MOTOR_OPTO_LINE_STATUS: the 32-bit word (R207). -/
  optoLine : BitVec 32
  /-- Input: what the transport does at the coming exchanges, first one first (R60, R62). -/
  replies : List Reply
  /-- Output: the frames handed to the transport's write, oldest first (R60). -/
  written : List (List Byte)
  /-- The MODEL's counter of free values, no state of the spec (log 17). -/
  draws : Nat
  deriving DecidableEq, Repr

/-- Why the machine stops. -/
inductive Fault where
  /-- Raised by `step`, and by the host's acts `requestOperation`, `callMessage` and `sampleRequest`:
  a request before the previous one has raised DONE, or two requests at once. The spec gives it no step
  and calls the host stuck (R263, I6). Safe: the model goes nowhere (logs 9 and 22). -/
  | overlappingRequest
  deriving DecidableEq, Repr

/-- What has no meaning. -/
inductive Refusal where
  /-- Raised by `exec` for an instruction without a meaning; no arm of this model does. Safe. -/
  | notModelled (mnemonic : String)
  /-- Raised by `step`: the decoder rejects the called message, for the reason given. No row of the
  table is meant. Safe (log 13). -/
  | undecodable (reason : DecodeError)
  deriving DecidableEq, Repr

/-- R42: the state right after reset. The input ports, which the spec gives no reset value, are at
zero and low (log 3); the message layer's outputs are empty (log 15). -/
def State.reset : State :=
  { status := 0, csum := 0, frame := [], frameLen := 0, resp := [], respLen := 0, coord := 0,
    rowOut := 0, colOut := 0, coordValid := false, done := false, inFlight := none,
    req := false, rst := false, ports := Ports.zero, call := none, apiStatus := .status 0,
    version := [], currentMA := 0, active := [], optoLine := 0, replies := [], written := [],
    draws := 0 }

end Sys2Proof.Machine
end

