-- ==== Sys2Proof/Machine/Ops.lean ====
section
/-! DEFINITION. The operations the meanings share: the checksum fold, the failure primitive, the
handshake's end, the five block operations on given operand values, and the message layer's
exchange. -/

namespace Sys2Proof.Machine

/-! ### The checksum generator -/

/-- R100: the XOR of the first `k` bytes, starting at `0x00`. -/
def fold (a : List Byte) (k : Nat) : Byte := (a.take k).foldl (· ^^^ ·) 0x00#8

/-! ### Failure and completion -/

/-- R11 `raise CODE()`, this machine's way to take an exception: STATUS gets the code and nothing
else changes here. Nothing is saved, no mode changes, control goes nowhere (R240), and there is no
return from it (R241). The failure writes of the operation's rule are made beside it. -/
def raise (code : Nibble) (s : State) : State := { s with status := code }

/-- R39: the operation completes and DONE is raised, the writes being visible. -/
def finish (s : State) : State := { s with done := true }

/-! ### ENCODE -/

/-- The frame bytes before the checksum (R73, R120). -/
def frameBody (ctrlId cmd : Byte) (data : List Byte) : List Byte :=
  [Config.stx, ctrlId, BitVec.ofNat 8 (data.length + Config.overhead), cmd] ++ data

/-- The checksum byte: the fold of the first `n + 4` bytes (R120). -/
def frameChecksum (ctrlId cmd : Byte) (data : List Byte) : Byte :=
  fold (frameBody ctrlId cmd data) (data.length + 4)

/-- The K1 frame of a message (R73, R120). -/
def frameBytes (ctrlId cmd : Byte) (data : List Byte) : List Byte :=
  frameBody ctrlId cmd data ++ [frameChecksum ctrlId cmd data]

/-- ENCODE on operand values (R120, R122). -/
def runEncode (ctrlId cmd : Byte) (data : List Byte) (s : State) : State :=
  if data.length > Config.maxData then
    finish (raise statusInvalidLength { s with frameLen := 0 })
  else
    finish { s with frame := Memory.writeBytes s.frame 0 (frameBytes ctrlId cmd data)
                    frameLen := BitVec.ofNat 8 (data.length + Config.overhead)
                    csum := frameChecksum ctrlId cmd data
                    status := statusOk }

/-! ### DECODE -/

/-- The code DECODE reports: the broadcast path (R142), or the length check and the ordered checks
of the validated path (R143, R144, R239). -/
def decodeStatus (ctx : Byte) (raw : List Byte) : Nibble :=
  if ctx = Config.idBroadcast then
    if raw.length = 0 then statusInvalidLength else statusOk
  else if raw.length < Config.minValidatedFrame then statusInvalidLength
  else if raw.getD 0 0 ≠ Config.stx then statusMalformed
  else if raw.getD 1 0 ≠ ctx then statusInvalidSource
  else if (raw.getD 2 0).toNat ≠ raw.length then statusInvalidLength
  else if raw.getD (raw.length - 1) 0 ≠ fold raw (raw.length - 1) then statusInvalidChecksum
  else statusOk

/-- The response data of a DECODE that succeeds: the whole buffer on the broadcast path (R142),
`raw[3 .. 3 + (raw[2] - 4)]` on the validated path (R145). -/
def decodePayload (ctx : Byte) (raw : List Byte) : List Byte :=
  if ctx = Config.idBroadcast then raw else (raw.drop 3).take ((raw.getD 2 0).toNat - 4)

/-- All 255 bytes of RESP unspecified (R146, I3): free values of one draw. -/
@[irreducible] def unspecifiedResp (draw : Nat) : Memory :=
  Memory.ofBytes ((List.range Config.bufSize).map (Config.respAfterFailure draw))

/-- DECODE on operand values (R140). -/
def runDecode (ctx : Byte) (raw : List Byte) (s : State) : State :=
  if decodeStatus ctx raw = statusOk then
    finish { s with resp := Memory.writeBytes s.resp 0 (decodePayload ctx raw)
                    respLen := BitVec.ofNat 8 (decodePayload ctx raw).length
                    status := statusOk }
  else
    finish (raise (decodeStatus ctx raw)
      { s with respLen := 0, resp := unspecifiedResp s.draws, draws := s.draws + 1 })

/-! ### XORFOLD, PACK, UNPACK -/

/-- XORFOLD on operand values (R102). -/
def runXorfold (bytes : List Byte) (s : State) : State :=
  finish { s with csum := fold bytes bytes.length, status := statusOk }

/-- PACK on operand values (R170). -/
def runPack (row col : Byte) (s : State) : State :=
  if coordInRange row col then finish { s with coord := coordByte row col, status := statusOk }
  else finish (raise statusInvalidMotorCoordinates { s with coord := 0x00#8 })

/-- UNPACK on operand values (R175). -/
def runUnpack (b : Byte) (s : State) : State :=
  finish { s with rowOut := coordRow b, colOut := coordCol b, coordValid := coordValidOf b,
                  status := statusOk }

/-! ### The message layer

A pseudo-instruction issues block operations one after another, each run to DONE: the host drives
the operand ports (R82), then the operation runs on what they hold. -/

/-- The host issues ENCODE. -/
def issueEncode (ctrlId cmd : Byte) (data : List Byte) (s : State) : State :=
  runEncode ctrlId cmd data { s with ports := driveEncode ctrlId cmd data s.ports }

/-- The host issues DECODE on the bytes that RX_IN and RX_COUNT hold. -/
def issueDecode (ctx : Byte) (s : State) : State :=
  runDecode ctx (portRx s.ports) { s with ports := driveDecode ctx s.ports }

/-- The host issues PACK. -/
def issuePack (row col : Byte) (s : State) : State :=
  runPack row col { s with ports := drivePack row col s.ports }

/-- The host issues UNPACK. -/
def issueUnpack (b : Byte) (s : State) : State :=
  runUnpack b { s with ports := driveUnpack b s.ports }

/-- The outcome of a STATUS register at the message layer. -/
def statusKind (s : State) : ErrorKind := .status s.status

/-- What a pseudo-instruction that went well ends with. -/
def kindOk : ErrorKind := .status statusOk

/-- `FRAME[0 .. FRAME_LEN]`, the bytes to transmit (R53, R265). -/
def frameOut (s : State) : List Byte := Memory.bytes s.frame s.frameLen.toNat

/-- `RESP[0 .. RESP_LEN]`, the response data (R26). -/
def respOut (s : State) : List Byte := Memory.bytes s.resp s.respLen.toNat

/-- The transport's next reply and the state that has consumed it (log 14). -/
def nextReply (s : State) : Reply × State :=
  match s.replies with
  | r :: rest => (r, { s with replies := rest })
  | [] => (Config.unlistedReply s.draws, { s with draws := s.draws + 1 })

/-- The frame is handed to the transport's write. -/
def writeOut (s : State) : State := { s with written := s.written ++ [frameOut s] }

/-- `EXCHANGE` (R60): purge, write the full frame, wait, read up to 255 bytes into RX_IN and
RX_COUNT. A transport failure aborts it. -/
def exchange (s : State) : State × ErrorKind :=
  match nextReply s with
  | (.bytes raw, t) =>
      ({ writeOut t with ports := driveReceived (raw.take Config.bufSize) t.ports }, kindOk)
  | (.purgeFails, t) => (t, .purgeFailed)
  | (.writeFails, t) => (writeOut t, .writeFailed)
  | (.readFails, t) => (writeOut t, .readFailed)

/-- ENCODE, EXCHANGE, DECODE with "stop on failure" (44_k1_messages.md): one request and its
response, with the outbound controller id as context (R60, R266). At most one EXCHANGE (R208). -/
def transact (ctrlId cmd : Byte) (data : List Byte) (s : State) : State × ErrorKind :=
  let s1 := issueEncode ctrlId cmd data s
  if s1.status = statusOk then
    let x := exchange s1
    if x.2 = kindOk then
      let s3 := issueDecode ctrlId x.1
      (s3, statusKind s3)
    else x
  else (s1, statusKind s1)

/-- The pseudo-instruction ends with this status. -/
def endCall (x : State × ErrorKind) : State := { x.1 with apiStatus := x.2 }

/-- A pseudo-instruction whose response is discarded or opaque. -/
def plainMessage (ctrlId cmd : Byte) (data : List Byte) (s : State) : State :=
  endCall (transact ctrlId cmd data s)

/-- R204: the bytes of `RESP[1 .. RESP_LEN]` up to the first `0x00`. -/
def versionString (resp : List Byte) : List Byte := (resp.drop 1).takeWhile (· != 0x00#8)

/-- R192, R196: how a version message ends after its exchange; on any failure the string is empty. -/
def versionOf (x : State × ErrorKind) : State :=
  if x.2 = kindOk then { endCall x with version := versionString (respOut x.1) }
  else { endCall x with version := [] }

/-- R192, R196: the version request. -/
def versionMessage (ctrlId : Byte) (s : State) : State := versionOf (transact ctrlId 0x02#8 [] s)

/-- R206: `(RESP[1] * 500) / 255`, clamped to 500. -/
def currentOf (b : Byte) : Nat := min (b.toNat * 500 / 255) 500

/-- R205 step 4: UNPACK once for each active-motor byte, in payload order. -/
def unpackAll : List Byte → State → List Motor × State
  | [], s => ([], s)
  | b :: bs, s =>
      let t := issueUnpack b s
      let r := unpackAll bs t
      ({ row := t.rowOut, col := t.colOut, valid := t.coordValid } :: r.1, r.2)

/-- The outputs of MOTOR_STATUS at zero. -/
def clearMotorStatus (s : State) : State := { s with currentMA := 0, active := [] }

/-- R205, R206: from the response data of a successful DECODE. -/
def motorStatusResult (s : State) : State :=
  let resp := respOut s
  if resp.length < 2 then clearMotorStatus (endCall (s, .status statusInvalidLength))
  else if resp.getD 0 0 ≠ 0x10#8 then clearMotorStatus (endCall (s, .status statusInvalidSource))
  else
    let r := unpackAll (resp.drop 2) s
    { endCall (r.2, kindOk) with currentMA := BitVec.ofNat 16 (currentOf (resp.getD 1 0))
                                 active := r.1 }

/-- R198: how MOTOR_STATUS ends after its exchange; on any failure its outputs are zero. -/
def motorStatusOf (x : State × ErrorKind) : State :=
  if x.2 = kindOk then motorStatusResult x.1 else clearMotorStatus (endCall x)

/-- R207: the little-endian word of `RESP[1 .. 5]`. -/
def optoWord (resp : List Byte) : BitVec 32 :=
  (resp.getD 1 0).setWidth 32 ||| ((resp.getD 2 0).setWidth 32 <<< 8) |||
    ((resp.getD 3 0).setWidth 32 <<< 16) ||| ((resp.getD 4 0).setWidth 32 <<< 24)

/-- R207: from the response data of a successful DECODE. -/
def optoLineResult (s : State) : State :=
  if (respOut s).length < 5 then { endCall (s, .status statusInvalidLength) with optoLine := 0 }
  else { endCall (s, kindOk) with optoLine := optoWord (respOut s) }

/-- R202: how MOTOR_OPTO_LINE_STATUS ends after its exchange; on any failure the word is zero. -/
def optoLineOf (x : State × ErrorKind) : State :=
  if x.2 = kindOk then optoLineResult x.1 else { endCall x with optoLine := 0 }

/-! ### Reset -/

/-- R260: every piece of architected state at its value of R42, and an operation in progress
abandoned. The host's inputs and the message layer are not the block's state and stay (log 11). -/
def assertReset (s : State) : State :=
  { s with status := 0, csum := 0, frame := [], frameLen := 0, resp := [], respLen := 0, coord := 0,
           rowOut := 0, colOut := 0, coordValid := false, done := false, inFlight := none,
           rst := false }

end Sys2Proof.Machine
end

