-- ==== Sys2Proof/Machine/Broadcast.lean ====
section
/-! DEFINITION. The broadcast pseudo-instruction (44_k1_messages.md section 4). -/

namespace Sys2Proof.Machine

/-- GLOBAL_RESET (R203), a message and not a reset of the block (R261). The opaque response is what
RESP holds after DECODE's broadcast path. -/
def execGlobalReset (s : State) : Host.Outcome State Fault Refusal :=
  .next (plainMessage Config.idBroadcast 0x01#8 [0xFF#8] s)

end Sys2Proof.Machine
end

