-- ==== Sys2Proof/Machine/Checksum.lean ====
section
/-! DEFINITION. The XOR checksum generator as an operation (40_checksum.md). -/

namespace Sys2Proof.Machine

/-- XORFOLD (R102). -/
def execXorfold (bytes : List Byte) (s : State) : Host.Outcome State Fault Refusal :=
  .next (runXorfold bytes s)

end Sys2Proof.Machine
end

