-- ==== Sys2Proof/Machine/Coordinate.lean ====
section
/-! DEFINITION. Motor coordinate pack and unpack (43_coordinate.md). -/

namespace Sys2Proof.Machine

/-- PACK (R170 to R172). -/
def execPack (row col : Byte) (s : State) : Host.Outcome State Fault Refusal :=
  .next (runPack row col s)

/-- UNPACK (R175, R176). -/
def execUnpack (b : Byte) (s : State) : Host.Outcome State Fault Refusal :=
  .next (runUnpack b s)

end Sys2Proof.Machine
end

