-- ==== Sys2Proof/Machine/Decoder.lean ====
section
/-! DEFINITION. The frame decoder (42_frame_decode.md). -/

namespace Sys2Proof.Machine

/-- DECODE (R140 to R147). -/
def execDecode (ctx : Byte) (raw : List Byte) (s : State) : Host.Outcome State Fault Refusal :=
  .next (runDecode ctx raw s)

end Sys2Proof.Machine
end

