-- ==== Sys2Proof/Machine/Encoder.lean ====
section
/-! DEFINITION. The frame encoder (41_frame_encode.md). -/

namespace Sys2Proof.Machine

/-- ENCODE (R120, R122, R123). -/
def execEncode (ctrlId cmd : Byte) (data : List Byte) (s : State) : Host.Outcome State Fault Refusal :=
  .next (runEncode ctrlId cmd data s)

end Sys2Proof.Machine
end

