-- ==== Sys2Proof/Machine/Motor.lean ====
section
/-! DEFINITION. The motor-array controller's pseudo-instructions (44_k1_messages.md section 3). -/

namespace Sys2Proof.Machine

/-- MOTOR_PING (R195). -/
def execMotorPing (s : State) : Host.Outcome State Fault Refusal :=
  .next (plainMessage Config.idMotor 0x00#8 [] s)

/-- MOTOR_VERSION (R196, R204). -/
def execMotorVersion (s : State) : Host.Outcome State Fault Refusal :=
  .next (versionMessage Config.idMotor s)

/-- MOTOR_RESET (R197), a message and not a reset of the block (R261). -/
def execMotorReset (s : State) : Host.Outcome State Fault Refusal :=
  .next (plainMessage Config.idMotor 0x05#8 [] s)

/-- MOTOR_STATUS (R198, R205, R206). -/
def execMotorStatus (s : State) : Host.Outcome State Fault Refusal :=
  .next (motorStatusOf (transact Config.idMotor 0x10#8 [] s))

/-- MOTOR_STOP_ALL (R199). -/
def execMotorStopAll (s : State) : Host.Outcome State Fault Refusal :=
  .next (plainMessage Config.idMotor 0x12#8 [] s)

/-- MOTOR_RUN (R200): PACK first; a coordinate out of the grid ends it before any ENCODE or
exchange. -/
def execMotorRun (row col : Byte) (s : State) : Host.Outcome State Fault Refusal :=
  let s1 := issuePack row col s
  .next (if s1.status = statusOk then plainMessage Config.idMotor 0x13#8 [s1.coord] s1
         else endCall (s1, statusKind s1))

/-- MOTOR_PAIR_RUN (R201): PACK both coordinates, `c1` then `c2`, before any ENCODE or exchange. -/
def execMotorPairRun (row c1 c2 : Byte) (s : State) : Host.Outcome State Fault Refusal :=
  let s1 := issuePack row c1 s
  let s2 := issuePack row c2 s1
  .next (if s1.status = statusOk then
           if s2.status = statusOk then
             plainMessage Config.idMotor 0x13#8 [s1.coord, s2.coord] s2
           else endCall (s2, statusKind s2)
         else endCall (s1, statusKind s1))

/-- MOTOR_OPTO_LINE_STATUS (R202, R207). -/
def execMotorOptoLineStatus (s : State) : Host.Outcome State Fault Refusal :=
  .next (optoLineOf (transact Config.idMotor 0x15#8 [] s))

end Sys2Proof.Machine
end

