-- ==== Sys2Proof/Machine/Relay.lean ====
section
/-! DEFINITION. The relay controllers' pseudo-instructions (44_k1_messages.md section 2). -/

namespace Sys2Proof.Machine

/-- RELAY_PING (R191). -/
def execRelayPing (id : BitVec 1) (s : State) : Host.Outcome State Fault Refusal :=
  .next (plainMessage (Config.idRelay id) 0x00#8 [] s)

/-- RELAY_VERSION (R192, R204). -/
def execRelayVersion (id : BitVec 1) (s : State) : Host.Outcome State Fault Refusal :=
  .next (versionMessage (Config.idRelay id) s)

/-- RELAY_RESET (R193), a message and not a reset of the block (R261). -/
def execRelayReset (id : BitVec 1) (s : State) : Host.Outcome State Fault Refusal :=
  .next (plainMessage (Config.idRelay id) 0x05#8 [] s)

/-- RELAY_SET (R194). -/
def execRelaySet (id : BitVec 1) (on : Bool) (s : State) : Host.Outcome State Fault Refusal :=
  .next (plainMessage (Config.idRelay id) 0x11#8 [if on then 0x01#8 else 0x00#8] s)

end Sys2Proof.Machine
end

