-- ==== Sys2Proof/Machine/Reserved.lean ====
section
/-! DEFINITION. The reserved OP values (R71): no register or buffer changes, STATUS among them, and
the handshake completes. The spec also advises a model to refuse (I1); the effect it states is taken
here, since it states one (log 6). -/

namespace Sys2Proof.Machine

/-- OP `101` (R71). -/
def execReserved101 (s : State) : Host.Outcome State Fault Refusal := .next (finish s)

/-- OP `110` (R71). -/
def execReserved110 (s : State) : Host.Outcome State Fault Refusal := .next (finish s)

/-- OP `111` (R71). -/
def execReserved111 (s : State) : Host.Outcome State Fault Refusal := .next (finish s)

end Sys2Proof.Machine
end

