-- ==== Sys2Proof/Machine/Dispatch.lean ====
section
/-! DEFINITION. The meaning of every instruction, one arm a constructor. -/

namespace Sys2Proof.Machine

def exec (i : Instr) (s : State) : Host.Outcome State Fault Refusal :=
  match i with
  | .encode ctrlId cmd data => Sys2Proof.Machine.execEncode ctrlId cmd data s
  | .decode ctx raw => Sys2Proof.Machine.execDecode ctx raw s
  | .xorfold bytes => Sys2Proof.Machine.execXorfold bytes s
  | .pack row col => Sys2Proof.Machine.execPack row col s
  | .unpack b => Sys2Proof.Machine.execUnpack b s
  | .reserved101 => Sys2Proof.Machine.execReserved101 s
  | .reserved110 => Sys2Proof.Machine.execReserved110 s
  | .reserved111 => Sys2Proof.Machine.execReserved111 s
  | .relayPing id => Sys2Proof.Machine.execRelayPing id s
  | .relayVersion id => Sys2Proof.Machine.execRelayVersion id s
  | .relayReset id => Sys2Proof.Machine.execRelayReset id s
  | .relaySet id on => Sys2Proof.Machine.execRelaySet id on s
  | .motorPing => Sys2Proof.Machine.execMotorPing s
  | .motorVersion => Sys2Proof.Machine.execMotorVersion s
  | .motorReset => Sys2Proof.Machine.execMotorReset s
  | .motorStatus => Sys2Proof.Machine.execMotorStatus s
  | .motorStopAll => Sys2Proof.Machine.execMotorStopAll s
  | .motorRun row col => Sys2Proof.Machine.execMotorRun row col s
  | .motorPairRun row c1 c2 => Sys2Proof.Machine.execMotorPairRun row c1 c2 s
  | .motorOptoLineStatus => Sys2Proof.Machine.execMotorOptoLineStatus s
  | .globalReset => Sys2Proof.Machine.execGlobalReset s

end Sys2Proof.Machine
end

