-- ==== Sys2Proof/Machine/Fetch.lean ====
section
/-! DEFINITION. Where the next instruction comes from. The block fetches nothing (R21, R61): the host
raises REQ with the operand ports valid (R39), or calls a message pseudo-instruction (R83). -/

namespace Sys2Proof.Machine

/-- What the host asks for. -/
inductive Fetched where
  /-- Nothing: REQ is low and no call waits. -/
  | idle
  /-- Two requests at once. -/
  | overlap
  /-- One instruction, in its encoded form. -/
  | word (w : Encoded)
  deriving DecidableEq, Repr

/-- The operation word on the ports, or the message call that waits. -/
def fetch (s : State) : Fetched :=
  match s.req, s.call with
  | false, none => .idle
  | true, none => .word (.operation s.ports)
  | false, some c => .word (.message c)
  | true, some _ => .overlap

/-- The host waits for something. -/
def requested (s : State) : Bool := s.req || s.call.isSome

/-- R263: the host may issue: the previous operation has raised DONE, and no request waits to be run. -/
def hostMayIssue (s : State) : Bool := s.inFlight.isNone && !requested s

/-- The host has issued against R263: a request while an operation is in progress, or two at once. That a
REQ still high while an operation is in progress counts as a request is a DESIGN CHOICE (log 23). -/
def overlapping (s : State) : Bool := (s.inFlight.isSome && requested s) || (s.req && s.call.isSome)

/-- The block has taken the request: REQ and the call are released, nothing is in progress. R39 does not
say when REQ falls. DESIGN CHOICE (log 23): it is low once the request has run. -/
def accept (s : State) : State := { s with req := false, call := none, inFlight := none }

/-- The state in which the instruction in this form is what the host asks for next. -/
def placeRequest (s : State) (w : Encoded) : State :=
  match w with
  | .operation p => { s with rst := false, inFlight := none, req := true, call := none, ports := p }
  | .message c => { s with rst := false, inFlight := none, req := false, call := some c }

end Sys2Proof.Machine
end

