-- ==== Sys2Proof/Machine/Step.lean ====
section
/-! DEFINITION. One step: the reset line (R260), the completion of an operation in progress (R38), or
one whole request from issue to DONE (R38, R39, R59; logs 1 and 23). A machine nobody asks stays as it is. -/

namespace Sys2Proof.Machine

/-- One step of the machine. -/
def step (s : State) : Host.Outcome State Fault Refusal :=
  if s.rst then .next (assertReset s)
  else
    match s.inFlight with
    | some i => if requested s then .fault .overlappingRequest else exec i (accept s)
    | none =>
      match fetch s with
      | .idle => .next s
      | .overlap => .fault .overlappingRequest
      | .word w =>
        match decode w with
        | .ok i => exec i (accept s)
        | .error e => .refused (.undecodable e)

/-- `s` with the instruction of these table bits as the host's next request (log 2). -/
def State.withFetchWord (s : State) (nbits w : Nat) : State := placeRequest s (tableForm nbits w)

end Sys2Proof.Machine
end

