-- ==== Sys2Proof/Machine/Host.lean ====
section
/-! DEFINITION. What the host outside the block does between steps (R39, R57, R62, R260): drive the
ports and raise REQ, call a message, assert reset, let replies arrive, look at an operation in
progress, and read the results. -/

namespace Sys2Proof.Machine

/-- The host drives the operand ports and raises REQ (R39), where R263 lets it. A request before the
previous operation's DONE has no step: the host is stuck (R263, I6; log 22). -/
def requestOperation (p : Ports) (s : State) : Host.Outcome State Fault Refusal :=
  if hostMayIssue s then .next { s with ports := p, req := true } else .fault .overlappingRequest

/-- The host calls a message pseudo-instruction (R83), whose operations are issued under R263 too: where
one may not be issued the call has no step (log 22). -/
def callMessage (c : MsgCall) (s : State) : Host.Outcome State Fault Refusal :=
  if hostMayIssue s then .next { s with call := some c } else .fault .overlappingRequest

/-- The host asserts the reset line (R260). -/
def raiseReset (s : State) : State := { s with rst := true }

/-- The transport will do this at the exchange after those already listed (R60, R62). -/
def expectReply (r : Reply) (s : State) : State := { s with replies := s.replies ++ [r] }

/-- The block's operands sampled and DONE not raised yet (R38; logs 1 and 20). R39 does not say when REQ
falls. DESIGN CHOICE (log 23): REQ falls here, at sampling and before DONE, so a REQ that is high while
the operation is in progress is another request. -/
def sampled (s : State) : State :=
  { s with inFlight := some (decodeOperation s.ports), req := false, done := false }

/-- The machine seen between issue and DONE. `step` runs a request to DONE in one step; this is the same
request seen halfway. Reset comes first (R260), an overlapping request has no step (R263, I6), and where
no operation is requested nothing is sampled: an operation in progress stays the one it is. -/
def sampleRequest (s : State) : Host.Outcome State Fault Refusal :=
  if s.rst then .next (assertReset s)
  else if overlapping s then .fault .overlappingRequest
  else if s.req then .next (sampled s)
  else .next s

/-- A result register or a buffer byte of R22 to R31. -/
inductive ResultReg where
  /-- STATUS. -/
  | status
  /-- CSUM. -/
  | csum
  /-- One byte of FRAME. -/
  | frameByte (i : Nat)
  /-- FRAME_LEN. -/
  | frameLen
  /-- One byte of RESP. -/
  | respByte (i : Nat)
  /-- RESP_LEN. -/
  | respLen
  /-- COORD. -/
  | coord
  /-- ROW_OUT. -/
  | rowOut
  /-- COL_OUT. -/
  | colOut
  /-- COORD_VALID. -/
  | coordValid
  deriving DecidableEq, Repr

/-- What the register holds, as a byte. -/
def resultValue (s : State) : ResultReg → Byte
  | .status => s.status.setWidth 8
  | .csum => s.csum
  | .frameByte i => Memory.read s.frame i
  | .frameLen => s.frameLen
  | .respByte i => Memory.read s.resp i
  | .respLen => s.respLen
  | .coord => s.coord
  | .rowOut => s.rowOut.setWidth 8
  | .colOut => s.colOut.setWidth 8
  | .coordValid => if s.coordValid then 1 else 0

/-- The host's read number `n`: no side effect (R57); while an operation is in progress an
unspecified value (R264, I9), otherwise what the register holds. -/
def hostRead (n : Nat) (r : ResultReg) (s : State) : Byte :=
  if s.inFlight.isSome then Config.readInProgress n else resultValue s r

/-- The library's numeric code for STATUS (R7 `ERRCODE_MAP`, R230). -/
def statusLibraryCode (s : State) : Int := Config.errcodeMap (statusKind s)

/-- The library's numeric code a pseudo-instruction returns (R7, R231). -/
def apiLibraryCode (s : State) : Int := Config.errcodeMap s.apiStatus

/-- The clock cycle at which DONE rises for an operation issued at this cycle (R39). -/
def doneCycle (issued : Nat) : Nat := issued + Config.latency

end Sys2Proof.Machine
end

