-- ==== Sys2Proof/Safety.lean ====
section
/-! DEFINITION. What counts as a safe run, in the terms the statements use: a valid K1 frame, the
invariant every step keeps, and the host's discipline. -/

namespace Sys2Proof.Machine

/-- The block operations of R70, the reserved values among them; the rest are pseudo-instructions of
the message layer (R83). -/
def isOperation : Instr → Bool
  | .encode _ _ _ => true
  | .decode _ _ => true
  | .xorfold _ => true
  | .pack _ _ => true
  | .unpack _ => true
  | .reserved101 => true
  | .reserved110 => true
  | .reserved111 => true
  | .relayPing _ => false
  | .relayVersion _ => false
  | .relayReset _ => false
  | .relaySet _ _ => false
  | .motorPing => false
  | .motorVersion => false
  | .motorReset => false
  | .motorStatus => false
  | .motorStopAll => false
  | .motorRun _ _ => false
  | .motorPairRun _ _ _ => false
  | .motorOptoLineStatus => false
  | .globalReset => false

/-- The legal operations: those whose OP value is not reserved (R22, R71). -/
def isLegalOperation : Instr → Bool
  | .encode _ _ _ => true
  | .decode _ _ => true
  | .xorfold _ => true
  | .pack _ _ => true
  | .unpack _ => true
  | .reserved101 => false
  | .reserved110 => false
  | .reserved111 => false
  | .relayPing _ => false
  | .relayVersion _ => false
  | .relayReset _ => false
  | .relaySet _ _ => false
  | .motorPing => false
  | .motorVersion => false
  | .motorReset => false
  | .motorStatus => false
  | .motorStopAll => false
  | .motorRun _ _ => false
  | .motorPairRun _ _ _ => false
  | .motorOptoLineStatus => false
  | .globalReset => false

/-- A K1 frame (R73, R74, R101 (c)): 5 to 255 bytes, STX first, its length in byte 2, and the XOR of
all its bytes zero. -/
structure ValidFrame (f : List Byte) : Prop where
  /-- At least the five bytes of overhead (R74). -/
  atLeastFive : 5 ≤ f.length
  /-- At most `MAX_FRAME` (R6). -/
  atMost255 : f.length ≤ 255
  /-- STX (R73). -/
  startsWithStx : f.getD 0 0 = 0x35#8
  /-- frame_length (R73, R74). -/
  lengthByte : (f.getD 2 0).toNat = f.length
  /-- The checksum law (R101 (c)). -/
  foldsToZero : fold f f.length = 0x00#8

/-- The next exchange in `s` meets the reply `r` and leaves the reply list `rest` and the counter of
free values at `n`: the first listed reply, or the free one where none is listed (R62, I7; log 14). -/
def Meets (s : State) (r : Reply) (rest : List Reply) (n : Nat) : Prop :=
  (s.replies = r :: rest ∧ n = s.draws) ∨
  (s.replies = [] ∧ r = Config.unlistedReply s.draws ∧ rest = [] ∧ n = s.draws + 1)

/-- What every step keeps. -/
structure Inv (s : State) : Prop where
  /-- FRAME is in canonical form. -/
  frameWf : Memory.wf s.frame = true
  /-- RESP is in canonical form. -/
  respWf : Memory.wf s.resp = true
  /-- DATA_IN is in canonical form. -/
  dataInWf : Memory.wf s.ports.dataIn = true
  /-- RX_IN is in canonical form. -/
  rxInWf : Memory.wf s.ports.rxIn = true
  /-- STATUS holds a code of R230, never 7 to 15 (I14). -/
  statusLegal : s.status.toNat ≤ 6
  /-- The message layer's status holds no reserved code either. -/
  apiStatusLegal : ∀ c, s.apiStatus = .status c → c.toNat ≤ 6
  /-- `FRAME[0 .. FRAME_LEN]` is empty or a whole K1 frame (R24, R25, R121). -/
  frameValid : s.frameLen = 0 ∨ ValidFrame (frameOut s)
  /-- COORD is `0x00` or a valid coordinate byte (R28). -/
  coordLegal : s.coord = 0 ∨ coordValidOf s.coord = true
  /-- COORD_VALID means a motor of the grid (R31). -/
  gridLegal : s.coordValid = true → s.rowOut.toNat < 8 ∧ s.colOut.toNat < 12
  /-- The current is in `[0, 500]` (R206). -/
  currentLegal : s.currentMA.toNat ≤ 500
  /-- Only whole K1 frames were handed to the transport. -/
  writtenValid : ∀ f ∈ s.written, ValidFrame f
  /-- A sampled operation fits the ports it was sampled from. -/
  inFlightWf : ∀ i, s.inFlight = some i → wellFormed i = true

/-- R263: at most one of an operation in progress, a raised REQ and a waiting call. -/
structure OneAtATime (s : State) : Prop where
  /-- Nothing is requested while an operation is in progress. -/
  inFlightAlone : s.inFlight ≠ none → s.req = false ∧ s.call = none
  /-- REQ and a call do not stand together. -/
  reqAlone : s.req = true → s.call = none

/-- The host is stuck: it issued against R263 (I6). -/
def Stuck (s : State) : Prop := step s = .fault .overlappingRequest

end Sys2Proof.Machine
end

