-- ==== Sys2Proof/Certificates/Slice0/Obligations.lean ====
section
/-! DEFINITION. The statements about the model, taken from the spec's numbered rules. -/

open Sys2Proof Sys2Proof.Machine

/-! ### Reset and the invariant -/

/-- R42: what the block's state holds after reset. -/
def Obligations.ResetLeavesEveryRegisterAtZero : Prop :=
  State.reset.status = 0x0#4 ∧ State.reset.csum = 0x00#8 ∧
  (∀ i, i < 255 → Memory.read State.reset.frame i = 0x00#8) ∧ State.reset.frameLen = 0#8 ∧
  (∀ i, i < 255 → Memory.read State.reset.resp i = 0x00#8) ∧ State.reset.respLen = 0#8 ∧
  State.reset.coord = 0x00#8 ∧ State.reset.rowOut = 0#4 ∧ State.reset.colOut = 0#4 ∧
  State.reset.coordValid = false ∧ State.reset.done = false

/-- The invariant holds right after reset. -/
def Obligations.InvariantHoldsAtReset : Prop := Inv State.reset

/-- Every step from a state that meets the invariant gives a state that meets it. -/
def Obligations.EveryStepKeepsInvariant : Prop :=
  ∀ s t : State, Inv s → step s = .next t → Inv t

/-- R260: reset puts every piece of architected state at its value of R42, and an operation in
progress is abandoned. -/
def Obligations.ResetLineClearsBlockAndAbandonsOperation : Prop :=
  ∀ s : State, s.rst = true → ∃ t, step s = .next t ∧
    t.status = 0x0#4 ∧ t.csum = 0x00#8 ∧ (∀ i, i < 255 → Memory.read t.frame i = 0x00#8) ∧
    t.frameLen = 0#8 ∧ (∀ i, i < 255 → Memory.read t.resp i = 0x00#8) ∧ t.respLen = 0#8 ∧
    t.coord = 0x00#8 ∧ t.rowOut = 0#4 ∧ t.colOut = 0#4 ∧ t.coordValid = false ∧
    t.done = false ∧ t.inFlight = none

/-- THE MODEL'S CHOICE (log 11): reset leaves the host's inputs and the message layer alone, and the
reset line is released. -/
def Obligations.ResetLineKeepsInputsAndMessageLayer : Prop :=
  ∀ s : State, s.rst = true → ∃ t, step s = .next t ∧
    t = { State.reset with
          req := s.req, ports := s.ports, call := s.call, apiStatus := s.apiStatus
          version := s.version, currentMA := s.currentMA, active := s.active
          optoLine := s.optoLine, replies := s.replies, written := s.written, draws := s.draws }

/-! ### Encoding -/

/-- Decoding an encoded well-formed instruction gives it back. -/
def Obligations.DecodeAfterEncodeIsIdentity : Prop :=
  ∀ i : Instr, wellFormed i = true → decode (encode i) = .ok i

/-- Whatever the ports or the call hold, what the decoder answers is well formed. -/
def Obligations.DecodedInstructionIsWellFormed : Prop :=
  ∀ (w : Encoded) (i : Instr), decode w = .ok i → wellFormed i = true

/-- Words of the opcode table, written out from their encodings (R70, R84, R190). That the operands in
the answers are zero is the model's choice: ports the table's bits do not give are zero (log 2), and a
message's argument bytes count on from bit 24 (log 13). -/
def Obligations.TableWordsDecodeToTheirRows : Prop :=
  decodeTableWord 8 0b001 = some (.decode 0#8 []) ∧
  decodeTableWord 8 0b011 = some (.pack 0#8 0#8) ∧
  decodeTableWord 8 0b110 = some .reserved110 ∧
  decodeTableWord 24 0x270502 = some (.relayVersion 1#1) ∧
  decodeTableWord 24 0x300713 = some (.motorPairRun 0#8 0#8 0#8) ∧
  decodeTableWord 24 0x000601 = some .globalReset

/-- R70: two settings of the ports that agree on OP and on the operands the operation lists ask for
the same instruction; the bytes beyond the count are among the operands ignored. -/
def Obligations.UnlistedOperandsAreIgnored : Prop :=
  ∀ p q : Ports, p.op = q.op →
    (p.op = 0b000#3 → p.ctrlId = q.ctrlId ∧ p.cmd = q.cmd ∧ p.dlen = q.dlen ∧
      ∀ i, i < p.dlen.toNat → Memory.read p.dataIn i = Memory.read q.dataIn i) →
    (p.op = 0b001#3 → p.ctrlId = q.ctrlId) →
    (p.op = 0b001#3 ∨ p.op = 0b010#3 → p.rxCount = q.rxCount ∧
      ∀ i, i < p.rxCount.toNat → Memory.read p.rxIn i = Memory.read q.rxIn i) →
    (p.op = 0b011#3 → p.rowIn = q.rowIn ∧ p.colIn = q.colIn) →
    (p.op = 0b100#3 → p.coordIn = q.coordIn) →
    decode (.operation p) = decode (.operation q)

/-- A call whose key no row of the message table has is refused by name, a relay id outside 0 and 1
among them (I8), and so is RELAY_SET with a switch byte other than 0 and 1 (log 13). -/
def Obligations.UnknownMessageCallIsRefused : Prop :=
  ∀ (s : State) (c : MsgCall), s.rst = false → s.inFlight = none → s.req = false →
    s.call = some c →
    ((∀ r ∈ messageTable, c.key &&& r.mask ≠ r.pattern) →
      step s = .refused (.undecodable (.unknownMessage c.key))) ∧
    (c.key = 0x260611#24 ∨ c.key = 0x270611#24 → c.arg0 ≠ 0x00#8 → c.arg0 ≠ 0x01#8 →
      step s = .refused (.undecodable (.badRelaySwitch c.arg0)))

/-! ### Steps -/

/-- A step runs the decoded instruction: the operation on the ports when REQ is raised, the message
that is called, or the operation in progress, each on the state that has taken the request. How it is
taken, REQ low after it among it, is the model's choice (logs 1, 2 and 23). -/
def Obligations.StepRunsTheRequestedInstruction : Prop :=
  ∀ s : State, s.rst = false →
    (s.inFlight = none → s.req = true → s.call = none →
      step s = exec (decodeOperation s.ports) { s with req := false, call := none, inFlight := none }) ∧
    (∀ c i, s.inFlight = none → s.req = false → s.call = some c → decode (.message c) = .ok i →
      step s = exec i { s with req := false, call := none, inFlight := none }) ∧
    (∀ i, s.inFlight = some i → s.req = false → s.call = none →
      step s = exec i { s with req := false, call := none, inFlight := none })

/-- The encoded form of a well-formed instruction, placed as the host's request, is what the very
next step runs. How the request is placed and taken is the model's choice (logs 2 and 23). -/
def Obligations.PlacedInstructionIsWhatTheStepRuns : Prop :=
  ∀ (s : State) (i : Instr), wellFormed i = true →
    step (placeRequest s (encode i)) = exec i (accept (placeRequest s (encode i)))

/-- R263, I6: a request while an operation is in progress, or two requests at once, has no step: the
host is stuck. The fault is the model's form of it (log 9), and that a REQ still high in progress is
such a request is the model's choice (log 23). -/
def Obligations.OverlappingRequestIsStuck : Prop :=
  ∀ s : State, s.rst = false →
    (s.inFlight ≠ none ∧ (s.req = true ∨ s.call ≠ none) ∨ s.req = true ∧ s.call ≠ none) →
    step s = .fault .overlappingRequest

/-- R263, I6: the host issues an operation or a message only when no operation is in progress and no
request waits; any other request, and sampling under one, has no step. The fault is the model's form of
"stuck" (logs 9 and 22), and that a raised REQ waits as a request is its choice (log 23). -/
def Obligations.OverlappingIssueHasNoStep : Prop :=
  ∀ (s : State) (p : Ports) (c : MsgCall),
    (s.inFlight ≠ none ∨ s.req = true ∨ s.call ≠ none →
      requestOperation p s = .fault .overlappingRequest ∧
      callMessage c s = .fault .overlappingRequest) ∧
    (s.inFlight = none ∧ s.req = false ∧ s.call = none →
      requestOperation p s = .next { s with ports := p, req := true } ∧
      callMessage c s = .next { s with call := some c }) ∧
    (s.rst = false →
      (s.inFlight ≠ none ∧ (s.req = true ∨ s.call ≠ none) ∨ s.req = true ∧ s.call ≠ none) →
      sampleRequest s = .fault .overlappingRequest) ∧
    (s.rst = false → s.inFlight ≠ none → s.req = false → s.call = none → sampleRequest s = .next s)

/-- R263: one operation at a time. At reset and after every step and every act of the host at most one
of an operation in progress, a raised REQ and a waiting call stands, and there no step is stuck (the
form of an operation in progress and of the stop, and when REQ falls, are the model's choice, logs 1,
9, 22 and 23). -/
def Obligations.RequestsStayOneAtATime : Prop :=
  OneAtATime State.reset ∧
  ∀ s : State, OneAtATime s →
    (∀ f, step s ≠ .fault f) ∧
    (∀ t, step s = .next t → OneAtATime t) ∧
    (∀ p t, requestOperation p s = .next t → OneAtATime t) ∧
    (∀ c t, callMessage c s = .next t → OneAtATime t) ∧
    (∀ t, sampleRequest s = .next t → OneAtATime t) ∧
    OneAtATime (raiseReset s) ∧ (∀ r, OneAtATime (expectReply r s))

/-- THE MODEL'S CHOICE (log 2): with no reset, no operation in progress and no request the machine
stays as it is. -/
def Obligations.MachineWithoutRequestStays : Prop :=
  ∀ s : State, s.rst = false → s.inFlight = none → s.req = false → s.call = none →
    step s = .next s

/-- R38: a change to the operand ports while an operation is in progress does not affect it: the
step gives the same state but for the ports. -/
def Obligations.PortChangeDoesNotAffectOperationInProgress : Prop :=
  ∀ (s t : State) (p : Ports) (i : Instr), s.rst = false → s.inFlight = some i →
    isOperation i = true → step s = .next t → step { s with ports := p } = .next { t with ports := p }

/-- R38: a request seen halfway, its operands sampled, completes to the state that the whole request
gives. The halfway state, and that REQ and DONE are low in it, are the model's choice (logs 1, 20 and
23). -/
def Obligations.SampledRequestCompletesAlike : Prop :=
  ∀ s : State, s.rst = false → s.inFlight = none → s.req = true → s.call = none →
    ∃ t u, step s = .next t ∧ sampleRequest s = .next u ∧
      u.inFlight = some (decodeOperation s.ports) ∧ u.req = false ∧ u.done = false ∧ step u = .next t

/-! ### The checksum generator -/

/-- R100: the fold starts at `0x00` and takes in one byte after another. -/
def Obligations.FoldIsRunningXor : Prop :=
  ∀ a : List Byte, fold a 0 = 0x00#8 ∧
    ∀ k, k < a.length → fold a (k + 1) = fold a k ^^^ a.getD k 0

/-- R101: the laws of the fold, (a) to (e). -/
def Obligations.FoldLaws : Prop :=
  (∀ (a : List Byte) (k : Nat), k < a.length → fold a k ^^^ a.getD k 0 = fold a (k + 1)) ∧
  (∀ a b : List Byte, a.Perm b → fold a a.length = fold b b.length) ∧
  (∀ f : List Byte, f ≠ [] → f.getD (f.length - 1) 0 = fold f (f.length - 1) →
    fold f f.length = 0x00#8) ∧
  (∀ (f : List Byte) (j : Nat) (v : Byte), ValidFrame f → j < f.length → v ≠ f.getD j 0 →
    fold (f.set j v) f.length ≠ 0x00#8 ∧
    (f.set j v).getD (f.length - 1) 0 ≠ fold (f.set j v) (f.length - 1) ∧
    (j ≤ 2 → ∀ (ctx : Byte) (s : State), ctx ≠ 0x00#8 → ctx = f.getD 1 0 →
      ∃ t, exec (.decode ctx (f.set j v)) s = .next t ∧
        t.status = if j = 0 then 3#4 else if j = 1 then 4#4 else 5#4)) ∧
  (∀ (f : List Byte) (i j : Nat) (m : Byte), i < f.length → j < f.length → i ≠ j →
    fold ((f.set i (f.getD i 0 ^^^ m)).set j (f.getD j 0 ^^^ m)) f.length = fold f f.length)

/-- R102: XORFOLD, with its encoding, its operands, its result and its corner cases. -/
def Obligations.XorfoldFoldsTheReceivedBytes : Prop :=
  (∀ p : Ports, p.op = 0b010#3 →
    decodeOperation p = .xorfold (Memory.bytes p.rxIn p.rxCount.toNat)) ∧
  (∀ (bytes : List Byte) (s : State), exec (.xorfold bytes) s
    = .next { s with csum := fold bytes bytes.length, status := 0#4, done := true }) ∧
  fold [] 0 = 0x00#8 ∧ (∀ b : Byte, fold [b] 1 = b) ∧
  (∀ f : List Byte, ValidFrame f → fold f f.length = 0x00#8 ∧
    fold (f.take (f.length - 1)) (f.length - 1) = f.getD (f.length - 1) 0)

/-! ### The encoder -/

/-- R120, R123: ENCODE, with its encoding, its operands and every effect, FRAME beyond the frame keeping
its bytes among them (R120, D10; log 21). -/
def Obligations.EncodeBuildsTheFrame : Prop :=
  (∀ p : Ports, p.op = 0b000#3 →
    decodeOperation p = .encode p.ctrlId p.cmd (Memory.bytes p.dataIn p.dlen.toNat)) ∧
  (∀ (s : State) (c m : Byte) (d : List Byte), d.length ≤ 250 →
    ∃ t, exec (.encode c m d) s = .next t ∧
      t = { s with frame := t.frame, frameLen := BitVec.ofNat 8 (d.length + 5)
                   csum := t.csum, status := 0#4, done := true } ∧
      Memory.read t.frame 0 = 0x35#8 ∧ Memory.read t.frame 1 = c ∧
      Memory.read t.frame 2 = BitVec.ofNat 8 (d.length + 5) ∧ Memory.read t.frame 3 = m ∧
      (∀ i, i < d.length → Memory.read t.frame (4 + i) = d.getD i 0) ∧
      Memory.read t.frame (d.length + 4)
        = fold (Memory.bytes t.frame (d.length + 4)) (d.length + 4) ∧
      t.csum = Memory.read t.frame (d.length + 4) ∧
      ∀ a, d.length + 5 ≤ a → Memory.read t.frame a = Memory.read s.frame a) ∧
  (∀ (s : State) (c m : Byte) (d : List Byte), 250 < d.length →
    exec (.encode c m d) s = .next { s with frameLen := 0#8, status := 5#4, done := true })

/-- R122: a request of ENCODE with `DLEN > 250` reports INVALID_LENGTH, sets FRAME_LEN to 0, and
writes no byte of FRAME and not CSUM. -/
def Obligations.OverlongEncodeWritesNoFrame : Prop :=
  ∀ s : State, s.rst = false → s.inFlight = none → s.call = none → s.req = true →
    s.ports.op = 0b000#3 → 250 < s.ports.dlen.toNat →
    ∃ t, step s = .next t ∧
      t = { s with req := t.req, frameLen := 0#8, status := 5#4, done := true }

/-- R121: a successful ENCODE writes its length twice, its frame folds to zero, and DECODE of it with
the frame's id as context gives the message back; with the broadcast id, the frame itself. -/
def Obligations.EncodedFrameDecodesToItsMessage : Prop :=
  ∀ (s : State) (c m : Byte) (d : List Byte), d.length ≤ 250 →
    ∃ t, exec (.encode c m d) s = .next t ∧
      Memory.read t.frame 2 = t.frameLen ∧ t.frameLen.toNat = d.length + 5 ∧
      fold (Memory.bytes t.frame t.frameLen.toNat) t.frameLen.toNat = 0x00#8 ∧
      ∀ r : State, ∃ u,
        exec (.decode c (Memory.bytes t.frame t.frameLen.toNat)) r = .next u ∧ u.status = 0#4 ∧
        (c ≠ 0x00#8 → Memory.read u.resp 0 = m ∧ u.respLen.toNat = d.length + 1 ∧
          ∀ i, i < d.length → Memory.read u.resp (1 + i) = d.getD i 0) ∧
        (c = 0x00#8 → u.respLen = t.frameLen ∧
          Memory.bytes u.resp u.respLen.toNat = Memory.bytes t.frame t.frameLen.toNat)

/-! ### The decoder -/

/-- R142: the broadcast path returns the received bytes whatever they are, and fails with
INVALID_LENGTH when there is none. That RESP beyond RESP_LEN keeps its bytes is not R142's but R140's
(D10; log 21, I10 says no claim should rest on it). -/
def Obligations.BroadcastDecodeReturnsWholeBuffer : Prop :=
  ∀ (s : State) (raw : List Byte), raw.length ≤ 255 →
    ∃ t, exec (.decode 0x00#8 raw) s = .next t ∧
      t = { s with resp := t.resp, respLen := t.respLen, status := t.status, draws := t.draws
                   done := true } ∧
      (raw = [] → t.status = 5#4 ∧ t.respLen = 0#8) ∧
      (raw ≠ [] → t.status = 0#4 ∧ t.respLen.toNat = raw.length ∧ t.draws = s.draws ∧
        (∀ i, i < raw.length → Memory.read t.resp i = raw.getD i 0) ∧
        ∀ a, raw.length ≤ a → Memory.read t.resp a = Memory.read s.resp a)

/-- R143: on the validated path a buffer of fewer than 5 bytes fails with INVALID_LENGTH, whatever
its bytes. -/
def Obligations.ShortBufferIsInvalidLength : Prop :=
  ∀ (s : State) (ctx : Byte) (raw : List Byte), ctx ≠ 0x00#8 → raw.length < 5 →
    ∃ t, exec (.decode ctx raw) s = .next t ∧ t.status = 5#4 ∧ t.respLen = 0#8

/-- R144: the ordered checks of the validated path; the first that fails decides the code, and the
copy of the first step becomes visible only when none fails. -/
def Obligations.ValidatedChecksDecideTheCodeInOrder : Prop :=
  ∀ (s : State) (ctx : Byte) (raw : List Byte), ctx ≠ 0x00#8 → 5 ≤ raw.length → raw.length ≤ 255 →
    (raw.getD (raw.length - 1) 0 = fold raw (raw.length - 1) ↔ fold raw raw.length = 0x00#8) ∧
    ∃ t, exec (.decode ctx raw) s = .next t ∧
      t.status = (if raw.getD 0 0 ≠ 0x35#8 then 3#4
        else if raw.getD 1 0 ≠ ctx then 4#4
        else if (raw.getD 2 0).toNat ≠ raw.length then 5#4
        else if raw.getD (raw.length - 1) 0 ≠ fold raw (raw.length - 1) then 1#4
        else 0#4) ∧
      (t.status ≠ 0#4 → t.respLen = 0#8) ∧
      (t.status = 0#4 → (raw.getD 2 0).toNat - 4 = raw.length - 4 ∧ 1 ≤ t.respLen.toNat ∧
        t.respLen.toNat = raw.length - 4 ∧
        ∀ i, i < raw.length - 4 → Memory.read t.resp i = raw.getD (3 + i) 0)

/-- R145, R140: on the validated path a buffer that passes every check gives its command byte and
data bytes; everything else keeps its value, RESP beyond RESP_LEN included (R140, D10; log 21). -/
def Obligations.ValidatedDecodeExtractsPayload : Prop :=
  ∀ (s : State) (ctx : Byte) (raw : List Byte), ctx ≠ 0x00#8 → 5 ≤ raw.length →
    raw.length ≤ 255 → raw.getD 0 0 = 0x35#8 → raw.getD 1 0 = ctx →
    (raw.getD 2 0).toNat = raw.length → fold raw raw.length = 0x00#8 →
    ∃ t, exec (.decode ctx raw) s = .next t ∧
      t = { s with resp := t.resp, respLen := t.respLen, status := 0#4, done := true } ∧
      t.respLen.toNat = raw.length - 4 ∧
      (∀ i, i < raw.length - 4 → Memory.read t.resp i = raw.getD (3 + i) 0) ∧
      ∀ a, raw.length - 4 ≤ a → Memory.read t.resp a = Memory.read s.resp a

/-- R146: whenever DECODE ends with a code, RESP_LEN is 0 and nothing but STATUS, RESP_LEN, the
unspecified bytes of RESP and DONE changes (`draws` is the model's counter of free values). -/
def Obligations.FailedDecodeReportsNothing : Prop :=
  ∀ (s t : State) (ctx : Byte) (raw : List Byte), exec (.decode ctx raw) s = .next t →
    t.status ≠ 0#4 →
    t.respLen = 0#8 ∧
    t = { s with status := t.status, respLen := 0#8, resp := t.resp, draws := s.draws + 1
                 done := true }

/-- R148: one byte of an accepted frame replaced; which code DECODE reports, by the byte. -/
def Obligations.TamperedFrameIsRejectedByItsByte : Prop :=
  ∀ (s u : State) (ctx : Byte) (f : List Byte), ctx ≠ 0x00#8 →
    exec (.decode ctx f) s = .next u → u.status = 0#4 →
    ∀ (j : Nat) (v : Byte) (r : State), j < f.length → v ≠ f.getD j 0 →
      ∃ t, exec (.decode ctx (f.set j v)) r = .next t ∧ t.respLen = 0#8 ∧
        t.status = (if j = 0 then 3#4 else if j = 1 then 4#4 else if j = 2 then 5#4 else 1#4)

/-- R233: no operation raises NEGATIVE_ACK, and no pseudo-instruction ends with it. -/
def Obligations.NegativeAckIsNeverRaised : Prop :=
  ∀ (i : Instr) (s t : State), exec i s = .next t →
    (isLegalOperation i = true → t.status ≠ 2#4) ∧
    (isOperation i = false → t.status ≠ 2#4 ∧ t.apiStatus ≠ .status 2#4)

/-! ### Motor coordinates -/

/-- R170, R171: PACK, with its encoding, its operands, and both outcomes. -/
def Obligations.PackEncodesOrRejectsCoordinate : Prop :=
  (∀ p : Ports, p.op = 0b011#3 → decodeOperation p = .pack p.rowIn p.colIn) ∧
  (∀ (row col : Byte) (s : State), row.toNat < 8 ∧ col.toNat < 12 →
    exec (.pack row col) s
      = .next { s with coord := ((row + 1#8) <<< 4) ||| (col + 1#8), status := 0#4, done := true }) ∧
  (∀ (row col : Byte) (s : State), 8 ≤ row.toNat ∨ 12 ≤ col.toNat →
    exec (.pack row col) s = .next { s with coord := 0x00#8, status := 6#4, done := true })

/-- R172: the two nibbles of a successful PACK, each its own 4-bit increment, and `|` equals `+`. -/
def Obligations.PackedNibblesDoNotCarry : Prop :=
  ∀ (row col : Byte) (s : State), row.toNat ≤ 7 → col.toNat ≤ 11 →
    ∃ t, exec (.pack row col) s = .next t ∧
      row.toNat + 1 ≤ 8 ∧ col.toNat + 1 ≤ 12 ∧
      (t.coord.extractLsb' 4 4).toNat = ((row.extractLsb' 0 4).toNat + 1) % 16 ∧
      (t.coord.extractLsb' 0 4).toNat = ((col.extractLsb' 0 4).toNat + 1) % 16 ∧
      ((row + 1#8) <<< 4) ||| (col + 1#8) = ((row + 1#8) <<< 4) + (col + 1#8)

/-- R175: UNPACK, with its encoding, its operand and every effect; the values under COORD_VALID = 0
are those the rule decides (log 8). -/
def Obligations.UnpackSplitsTheByte : Prop :=
  (∀ p : Ports, p.op = 0b100#3 → decodeOperation p = .unpack p.coordIn) ∧
  (∀ (b : Byte) (s : State), exec (.unpack b) s
    = .next { s with rowOut := b.extractLsb' 4 4 - 1#4, colOut := b.extractLsb' 0 4 - 1#4
                     coordValid := decide ((1 ≤ b.toNat / 16 ∧ b.toNat / 16 ≤ 8) ∧
                       (1 ≤ b.toNat % 16 ∧ b.toNat % 16 ≤ 12))
                     status := 0#4, done := true })

/-- R177: the round trips of PACK and UNPACK, (a), (b) and (c). -/
def Obligations.CoordinateRoundTrips : Prop :=
  (∀ (row col : Byte) (s : State), row.toNat ≤ 7 → col.toNat ≤ 11 →
    ∃ t u, exec (.pack row col) s = .next t ∧ exec (.unpack t.coord) t = .next u ∧
      u.rowOut.toNat = row.toNat ∧ u.colOut.toNat = col.toNat ∧ u.coordValid = true) ∧
  (∀ (b : Byte) (s u : State), exec (.unpack b) s = .next u → u.coordValid = true →
    ∃ t, exec (.pack (u.rowOut.setWidth 8) (u.colOut.setWidth 8)) u = .next t ∧
      t.status = 0#4 ∧ t.coord = b) ∧
  (∀ (row col : Byte) (s : State),
    ∃ t u, exec (.pack row col) s = .next t ∧ exec (.unpack t.coord) t = .next u ∧
      (t.status = 0#4 ↔ u.coordValid = true))

/-! ### Reserved operations -/

/-- R71: a reserved OP value changes no register and no buffer, STATUS included, and completes the
handshake. -/
def Obligations.ReservedOperationChangesNoState : Prop :=
  (∀ p : Ports, p.op = 0b101#3 → decodeOperation p = .reserved101) ∧
  (∀ p : Ports, p.op = 0b110#3 → decodeOperation p = .reserved110) ∧
  (∀ p : Ports, p.op = 0b111#3 → decodeOperation p = .reserved111) ∧
  ∀ s : State, exec .reserved101 s = .next { s with done := true } ∧
    exec .reserved110 s = .next { s with done := true } ∧
    exec .reserved111 s = .next { s with done := true }

/-! ### Operations as functions of their operands -/

/-- R57, R262: what a legal operation writes depends on its operands alone, whatever the state it
runs in; RESP after a failed DECODE is the one exception. -/
def Obligations.ResultsDependOnOperandsAlone : Prop :=
  ∀ (i : Instr) (s s' t t' : State), isLegalOperation i = true → wellFormed i = true →
    exec i s = .next t → exec i s' = .next t' →
    t.status = t'.status ∧
    (∀ c m d, i = .encode c m d → t.frameLen = t'.frameLen ∧
      (t.status = 0#4 → t.csum = t'.csum ∧ ∀ a, a < t.frameLen.toNat →
        Memory.read t.frame a = Memory.read t'.frame a)) ∧
    (∀ c r, i = .decode c r → t.respLen = t'.respLen ∧
      (t.status = 0#4 → ∀ a, a < t.respLen.toNat →
        Memory.read t.resp a = Memory.read t'.resp a)) ∧
    (∀ l, i = .xorfold l → t.csum = t'.csum) ∧
    (∀ r c, i = .pack r c → t.coord = t'.coord) ∧
    (∀ b, i = .unpack b → t.rowOut = t'.rowOut ∧ t.colOut = t'.colOut ∧
      t.coordValid = t'.coordValid)

/-- R57: an operation issued again with the same operands changes nothing more, but for RESP after a
failed DECODE. -/
def Obligations.OperationIsIdempotent : Prop :=
  ∀ (i : Instr) (s t : State), isOperation i = true → wellFormed i = true →
    Memory.wf s.frame = true → Memory.wf s.resp = true → exec i s = .next t →
    (t.status = 0#4 ∨ ∀ c r, i ≠ .decode c r) →
    exec i t = .next t

/-! ### The message layer -/

/-- The expansion of a message with no operand to pack (44_k1_messages.md; the list of replies and the
ports' values are the model's choices, logs 12 and 14): ENCODE builds `frame`, the
exchange hands it to the transport and brings in at most 255 bytes of the reply, DECODE runs on
them with the same controller id; `u` is the state after it, and `apiStatus` is not written yet. `rest`
and `n` are the reply list and the counter of free values that the exchange leaves. -/
def Exchanged (ctrl cmd : Byte) (data frame raw : List Byte) (rest : List Reply) (n : Nat)
    (s u : State) : Prop :=
  ∃ e d, exec (.encode ctrl cmd data) s = .next e ∧ frameOut e = frame ∧ e.status = 0#4 ∧
    exec (.decode ctrl (raw.take 255)) { e with draws := n } = .next d ∧
    u = { d with
          ports := driveDecode ctrl (driveReceived (raw.take 255) (driveEncode ctrl cmd data s.ports))
          replies := rest
          written := s.written ++ [frame] }

/-- The expansion cut short by a transport failure (which frame counts as handed over is the model's
choice, log 14): ENCODE has run and nothing of DECODE has. -/
def ExchangeFailed (ctrl cmd : Byte) (data frame : List Byte) (handed : Bool) (rest : List Reply)
    (n : Nat) (s u : State) : Prop :=
  ∃ e, exec (.encode ctrl cmd data) s = .next e ∧ frameOut e = frame ∧ e.status = 0#4 ∧
    u = { e with
          ports := driveEncode ctrl cmd data s.ports
          replies := rest
          draws := n
          written := if handed then s.written ++ [frame] else s.written }

/-- What a message whose response is discarded does in `s`, its request starting in the state `p`, for
every reply it can meet, listed or free: it ends with DECODE's status, or with the transport's failure
and its frame handed over or not. -/
def DiscardsFrom (i : Instr) (ctrl cmd : Byte) (data frame : List Byte) (s p : State) : Prop :=
  ∀ (r : Reply) (rest : List Reply) (n : Nat), Meets s r rest n →
    match r with
    | .bytes raw => ∃ u, Exchanged ctrl cmd data frame raw rest n p u ∧
        exec i s = .next { u with apiStatus := .status u.status }
    | .purgeFails => ∃ u, ExchangeFailed ctrl cmd data frame false rest n p u ∧
        exec i s = .next { u with apiStatus := .purgeFailed }
    | .writeFails => ∃ u, ExchangeFailed ctrl cmd data frame true rest n p u ∧
        exec i s = .next { u with apiStatus := .writeFailed }
    | .readFails => ∃ u, ExchangeFailed ctrl cmd data frame true rest n p u ∧
        exec i s = .next { u with apiStatus := .readFailed }

/-- The same for a message that issues nothing before its request. -/
def DiscardsResponse (i : Instr) (ctrl cmd : Byte) (data frame : List Byte) : Prop :=
  ∀ s : State, DiscardsFrom i ctrl cmd data frame s s

/-- R191, R193, R194: RELAY_PING, RELAY_RESET and RELAY_SET, with every request frame. -/
def Obligations.RelayMessagesSendTheirFrames : Prop :=
  DiscardsResponse (.relayPing 0#1) 0x26#8 0x00#8 [] [0x35#8, 0x26#8, 0x05#8, 0x00#8, 0x16#8] ∧
  DiscardsResponse (.relayPing 1#1) 0x27#8 0x00#8 [] [0x35#8, 0x27#8, 0x05#8, 0x00#8, 0x17#8] ∧
  DiscardsResponse (.relayReset 0#1) 0x26#8 0x05#8 [] [0x35#8, 0x26#8, 0x05#8, 0x05#8, 0x13#8] ∧
  DiscardsResponse (.relayReset 1#1) 0x27#8 0x05#8 [] [0x35#8, 0x27#8, 0x05#8, 0x05#8, 0x12#8] ∧
  DiscardsResponse (.relaySet 0#1 false) 0x26#8 0x11#8 [0x00#8]
    [0x35#8, 0x26#8, 0x06#8, 0x11#8, 0x00#8, 0x04#8] ∧
  DiscardsResponse (.relaySet 0#1 true) 0x26#8 0x11#8 [0x01#8]
    [0x35#8, 0x26#8, 0x06#8, 0x11#8, 0x01#8, 0x05#8] ∧
  DiscardsResponse (.relaySet 1#1 false) 0x27#8 0x11#8 [0x00#8]
    [0x35#8, 0x27#8, 0x06#8, 0x11#8, 0x00#8, 0x05#8] ∧
  DiscardsResponse (.relaySet 1#1 true) 0x27#8 0x11#8 [0x01#8]
    [0x35#8, 0x27#8, 0x06#8, 0x11#8, 0x01#8, 0x04#8]

/-- R195, R197, R199, R203: MOTOR_PING, MOTOR_RESET, MOTOR_STOP_ALL and GLOBAL_RESET. -/
def Obligations.MotorAndGlobalMessagesSendTheirFrames : Prop :=
  DiscardsResponse .motorPing 0x30#8 0x00#8 [] [0x35#8, 0x30#8, 0x05#8, 0x00#8, 0x00#8] ∧
  DiscardsResponse .motorReset 0x30#8 0x05#8 [] [0x35#8, 0x30#8, 0x05#8, 0x05#8, 0x05#8] ∧
  DiscardsResponse .motorStopAll 0x30#8 0x12#8 [] [0x35#8, 0x30#8, 0x05#8, 0x12#8, 0x12#8] ∧
  DiscardsResponse .globalReset 0x00#8 0x01#8 [0xFF#8]
    [0x35#8, 0x00#8, 0x06#8, 0x01#8, 0xFF#8, 0xCD#8]

/-- R200: MOTOR_RUN packs its coordinate, then sends it; outside the grid it ends with
INVALID_MOTOR_COORDINATES, no ENCODE and no transport I/O. -/
def Obligations.MotorRunSendsItsCoordinate : Prop :=
  (∀ (row col : Byte) (s p : State), row.toNat < 8 → col.toNat < 12 →
    exec (.pack row col) { s with ports := drivePack row col s.ports } = .next p →
    DiscardsFrom (.motorRun row col) 0x30#8 0x13#8 [p.coord]
      [0x35#8, 0x30#8, 0x06#8, 0x13#8, p.coord, 0x10#8 ^^^ p.coord] s p) ∧
  (∀ (row col : Byte) (s : State), 8 ≤ row.toNat ∨ 12 ≤ col.toNat →
    exec (.motorRun row col) s
      = .next { s with ports := drivePack row col s.ports, coord := 0x00#8, status := 6#4
                       apiStatus := .status 6#4, done := true })

/-- R201: MOTOR_PAIR_RUN packs both coordinates before it sends them; either outside the grid ends it
with INVALID_MOTOR_COORDINATES, no ENCODE and no transport I/O. -/
def Obligations.MotorPairRunSendsBothCoordinates : Prop :=
  (∀ (row c1 c2 : Byte) (s p q : State), row.toNat < 8 → c1.toNat < 12 → c2.toNat < 12 →
    exec (.pack row c1) { s with ports := drivePack row c1 s.ports } = .next p →
    exec (.pack row c2) { p with ports := drivePack row c2 p.ports } = .next q →
    DiscardsFrom (.motorPairRun row c1 c2) 0x30#8 0x13#8 [p.coord, q.coord]
      [0x35#8, 0x30#8, 0x07#8, 0x13#8, p.coord, q.coord, 0x11#8 ^^^ p.coord ^^^ q.coord] s q) ∧
  (∀ (row c1 c2 : Byte) (s : State), 8 ≤ row.toNat ∨ 12 ≤ c1.toNat ∨ 12 ≤ c2.toNat →
    ∃ t, exec (.motorPairRun row c1 c2) s = .next t ∧
      t = { s with ports := t.ports, coord := 0x00#8, status := 6#4
                   apiStatus := .status 6#4, done := true })

/-- What a version message does with reply bytes, listed or free (R192, R196, R204): the string is the bytes of
`RESP[1 .. RESP_LEN]` before the first `0x00`, and empty on a failure. -/
def GivesVersion (i : Instr) (ctrl : Byte) (frame : List Byte) : Prop :=
  ∀ (s : State) (raw : List Byte) (rest : List Reply) (n : Nat), Meets s (.bytes raw) rest n →
    ∃ u v, Exchanged ctrl 0x02#8 [] frame raw rest n s u ∧
      exec i s = .next { u with apiStatus := .status u.status, version := v } ∧
      (u.status ≠ 0#4 → v = []) ∧
      (u.status = 0#4 → ∃ tail, (respOut u).drop 1 = v ++ tail ∧ (0x00#8 ∉ v) ∧
        (tail = [] ∨ ∃ more, tail = 0x00#8 :: more))

/-- R192, R196, R204: RELAY_VERSION and MOTOR_VERSION. -/
def Obligations.VersionMessagesGiveTheString : Prop :=
  GivesVersion (.relayVersion 0#1) 0x26#8 [0x35#8, 0x26#8, 0x05#8, 0x02#8, 0x14#8] ∧
  GivesVersion (.relayVersion 1#1) 0x27#8 [0x35#8, 0x27#8, 0x05#8, 0x02#8, 0x15#8] ∧
  GivesVersion .motorVersion 0x30#8 [0x35#8, 0x30#8, 0x05#8, 0x02#8, 0x02#8]

/-- R198, R205, R206: MOTOR_STATUS. On DECODE's failure, a response shorter than 2 bytes or a wrong
echo its outputs are zero; otherwise the current is scaled and each further byte is unpacked, the last
one staying in the registers of UNPACK. -/
def Obligations.MotorStatusDecodesCurrentAndMotors : Prop :=
  ∀ (s : State) (raw : List Byte) (rest : List Reply) (n : Nat), Meets s (.bytes raw) rest n →
    ∃ u t, Exchanged 0x30#8 0x10#8 [] [0x35#8, 0x30#8, 0x05#8, 0x10#8, 0x10#8] raw rest n s u ∧
      exec .motorStatus s = .next t ∧
      (u.status ≠ 0#4 →
        t = { u with apiStatus := .status u.status, currentMA := 0#16, active := [] }) ∧
      (u.status = 0#4 → (respOut u).length < 2 →
        t = { u with apiStatus := .status 5#4, currentMA := 0#16, active := [] }) ∧
      (u.status = 0#4 → 2 ≤ (respOut u).length → (respOut u).getD 0 0 ≠ 0x10#8 →
        t = { u with apiStatus := .status 4#4, currentMA := 0#16, active := [] }) ∧
      (u.status = 0#4 → 2 ≤ (respOut u).length → (respOut u).getD 0 0 = 0x10#8 →
        t = { u with apiStatus := .status 0#4, currentMA := t.currentMA, active := t.active
                     rowOut := t.rowOut, colOut := t.colOut, coordValid := t.coordValid
                     ports := t.ports } ∧
        t.currentMA.toNat = ((respOut u).getD 1 0).toNat * 500 / 255 ∧
        t.active.length = (respOut u).length - 2 ∧
        (∀ k m, t.active[k]? = some m → ∃ w, exec (.unpack ((respOut u).getD (2 + k) 0)) u = .next w ∧
          m.row = w.rowOut ∧ m.col = w.colOut ∧ m.valid = w.coordValid) ∧
        ((respOut u).length = 2 → t.rowOut = u.rowOut ∧ t.colOut = u.colOut ∧
          t.coordValid = u.coordValid ∧ t.ports = u.ports) ∧
        ∀ b, 2 < (respOut u).length → (respOut u).getD ((respOut u).length - 1) 0 = b →
          ∃ w, exec (.unpack b) u = .next w ∧ t.rowOut = w.rowOut ∧ t.colOut = w.colOut ∧
            t.coordValid = w.coordValid ∧ t.ports = driveUnpack b u.ports)

/-- R206: the scaled current is the exact quotient, stays in `[0, 500]`, grows with the raw byte, and
has the source's three values. -/
def Obligations.CurrentScalingIsMonotonic : Prop :=
  (∀ b : Byte, currentOf b = b.toNat * 500 / 255 ∧ currentOf b ≤ 500) ∧
  (∀ b c : Byte, b.toNat ≤ c.toNat → currentOf b ≤ currentOf c) ∧
  currentOf 0#8 = 0 ∧ currentOf 128#8 = 250 ∧ currentOf 255#8 = 500

/-- R202, R207: MOTOR_OPTO_LINE_STATUS. The word is little-endian over `RESP[1 .. 5]`; a response
shorter than 5 bytes is INVALID_LENGTH, and on every failure the word is zero. -/
def Obligations.OptoLineStatusIsLittleEndian : Prop :=
  ∀ (s : State) (raw : List Byte) (rest : List Reply) (n : Nat), Meets s (.bytes raw) rest n →
    ∃ u w, Exchanged 0x30#8 0x15#8 [] [0x35#8, 0x30#8, 0x05#8, 0x15#8, 0x15#8] raw rest n s u ∧
      (u.status ≠ 0#4 → exec .motorOptoLineStatus s
        = .next { u with apiStatus := .status u.status, optoLine := 0#32 }) ∧
      (u.status = 0#4 → (respOut u).length < 5 → exec .motorOptoLineStatus s
        = .next { u with apiStatus := .status 5#4, optoLine := 0#32 }) ∧
      (u.status = 0#4 → 5 ≤ (respOut u).length → exec .motorOptoLineStatus s
          = .next { u with apiStatus := .status 0#4, optoLine := w } ∧
        w.toNat = ((respOut u).getD 1 0).toNat + 256 * ((respOut u).getD 2 0).toNat +
          65536 * ((respOut u).getD 3 0).toNat + 16777216 * ((respOut u).getD 4 0).toNat)

/-- "Stop on failure": a transport failure, listed or free, aborts every pseudo-instruction that has
outputs. ENCODE has run, DECODE has not, the instruction ends with the failure, its own outputs are zero,
and all else is as the failed exchange leaves it (what counts as handed over, and that the other calls'
outputs stay, are the model's choices, logs 14 and 15). -/
def Obligations.TransportFailureZeroesOutputs : Prop :=
  ∀ (s : State) (f : Reply) (rest : List Reply) (n : Nat) (k : ErrorKind) (handed : Bool),
    Meets s f rest n →
    (f = .purgeFails ∧ k = .purgeFailed ∧ handed = false ∨
      f = .writeFails ∧ k = .writeFailed ∧ handed = true ∨
      f = .readFails ∧ k = .readFailed ∧ handed = true) →
    (∃ u, ExchangeFailed 0x26#8 0x02#8 [] [0x35#8, 0x26#8, 0x05#8, 0x02#8, 0x14#8] handed rest n s u ∧
      exec (.relayVersion 0#1) s = .next { u with apiStatus := k, version := [] }) ∧
    (∃ u, ExchangeFailed 0x27#8 0x02#8 [] [0x35#8, 0x27#8, 0x05#8, 0x02#8, 0x15#8] handed rest n s u ∧
      exec (.relayVersion 1#1) s = .next { u with apiStatus := k, version := [] }) ∧
    (∃ u, ExchangeFailed 0x30#8 0x02#8 [] [0x35#8, 0x30#8, 0x05#8, 0x02#8, 0x02#8] handed rest n s u ∧
      exec .motorVersion s = .next { u with apiStatus := k, version := [] }) ∧
    (∃ u, ExchangeFailed 0x30#8 0x10#8 [] [0x35#8, 0x30#8, 0x05#8, 0x10#8, 0x10#8] handed rest n s u ∧
      exec .motorStatus s = .next { u with apiStatus := k, currentMA := 0#16, active := [] }) ∧
    (∃ u, ExchangeFailed 0x30#8 0x15#8 [] [0x35#8, 0x30#8, 0x05#8, 0x15#8, 0x15#8] handed rest n s u ∧
      exec .motorOptoLineStatus s = .next { u with apiStatus := k, optoLine := 0#32 })

/-- Every instruction completes: in every state `exec` answers a next state, with DONE raised. -/
def Obligations.EveryInstructionCompletes : Prop :=
  ∀ (i : Instr) (s : State), ∃ t, exec i s = .next t ∧ t.done = true

/-- R208: a pseudo-instruction performs at most one exchange: at most one frame is handed to the
transport and at most one reply is taken; a block operation performs none. -/
def Obligations.AtMostOneExchangePerInstruction : Prop :=
  ∀ (i : Instr) (s t : State), exec i s = .next t →
    (t.written = s.written ∨ ∃ f, t.written = s.written ++ [f]) ∧
    (t.replies = s.replies ∨ t.replies = s.replies.tail) ∧
    (isOperation i = true → t.written = s.written ∧ t.replies = s.replies ∧
      t.apiStatus = s.apiStatus ∧ t.ports = s.ports)

/-- A message whose motor coordinates lie in the grid; every other message has no operand outside
its range. -/
def inGridMessage : Instr → Bool
  | .motorRun row col => decide (row.toNat < 8) && decide (col.toNat < 12)
  | .motorPairRun row c1 c2 =>
      decide (row.toNat < 8) && decide (c1.toNat < 12) && decide (c2.toNat < 12)
  | i => !isOperation i

/-- R84, R190: whatever reply it meets, listed or free, the frame a pseudo-instruction sends is a whole
K1 frame, and the message table reads the very instruction back from it, operands included; where the
purge fails, before the write (R60), it sends none. -/
def Obligations.SentFrameReadsBackAsItsMessage : Prop :=
  ∀ (i : Instr) (s t : State) (r : Reply) (rest : List Reply) (n : Nat), inGridMessage i = true →
    Meets s r rest n → exec i s = .next t →
    (r ≠ .purgeFails →
      ∃ f, t.written = s.written ++ [f] ∧ ValidFrame f ∧ messageOfFrame f = some i) ∧
    (r = .purgeFails → t.written = s.written)
end

