-- ==== Sys2Proof/Laws/Coordinate.lean ====
section
/-! SUPPORT. The coordinate byte: the finite facts about PACK and UNPACK, checked over every row and
column or every byte. -/

namespace Sys2Proof.Machine

/-- A coordinate of the grid, by its numbers. -/
theorem coordInRange_iff (row col : Byte) :
    coordInRange row col = true ↔ row.toNat < 8 ∧ col.toNat < 12 := by
  simp [coordInRange]

/-- A fact about every coordinate of the grid, from the 96 numeric ones. -/
theorem forall_grid {P : Byte → Byte → Prop}
    (h : ∀ r : Fin 8, ∀ c : Fin 12, P (BitVec.ofNat 8 r.val) (BitVec.ofNat 8 c.val))
    {row col : Byte} (hr : coordInRange row col = true) : P row col := by
  obtain ⟨h1, h2⟩ := (coordInRange_iff row col).1 hr
  have := h ⟨row.toNat, h1⟩ ⟨col.toNat, h2⟩
  simpa using this

theorem coordByte_valid {row col : Byte} (h : coordInRange row col = true) :
    coordValidOf (coordByte row col) = true :=
  forall_grid (P := fun row col => coordValidOf (coordByte row col) = true) (by decide) h

theorem coordRow_coordByte {row col : Byte} (h : coordInRange row col = true) :
    (coordRow (coordByte row col)).setWidth 8 = row :=
  forall_grid (P := fun row col => (coordRow (coordByte row col)).setWidth 8 = row) (by decide) h

theorem coordCol_coordByte {row col : Byte} (h : coordInRange row col = true) :
    (coordCol (coordByte row col)).setWidth 8 = col :=
  forall_grid (P := fun row col => (coordCol (coordByte row col)).setWidth 8 = col) (by decide) h

theorem highNibble_coordByte {row col : Byte} (h : coordInRange row col = true) :
    highNibble (coordByte row col) = lowNibble row + 1 :=
  forall_grid (P := fun row col => highNibble (coordByte row col) = lowNibble row + 1) (by decide) h

theorem lowNibble_coordByte {row col : Byte} (h : coordInRange row col = true) :
    lowNibble (coordByte row col) = lowNibble col + 1 :=
  forall_grid (P := fun row col => lowNibble (coordByte row col) = lowNibble col + 1) (by decide) h

/-- A fact about every byte, from the 256 numeric ones. -/
theorem forall_byte {P : Byte → Prop}
    (h : ∀ hi lo : Fin 16, P (BitVec.ofNat 8 (16 * hi.val + lo.val))) (b : Byte) : P b := by
  have hb := b.isLt
  have := h ⟨b.toNat / 16, by omega⟩ ⟨b.toNat % 16, by omega⟩
  have e : 16 * (b.toNat / 16) + b.toNat % 16 = b.toNat := by omega
  simpa [e] using this

theorem coordInRange_of_valid {b : Byte} (h : coordValidOf b = true) :
    coordInRange ((coordRow b).setWidth 8) ((coordCol b).setWidth 8) = true ∧
      coordByte ((coordRow b).setWidth 8) ((coordCol b).setWidth 8) = b :=
  forall_byte (P := fun b => coordValidOf b = true →
    coordInRange ((coordRow b).setWidth 8) ((coordCol b).setWidth 8) = true ∧
      coordByte ((coordRow b).setWidth 8) ((coordCol b).setWidth 8) = b) (by decide) b h

/-- A valid byte's row and column are in the grid. -/
theorem grid_of_valid {b : Byte} (h : coordValidOf b = true) :
    (coordRow b).toNat < 8 ∧ (coordCol b).toNat < 12 :=
  forall_byte (P := fun b => coordValidOf b = true →
    (coordRow b).toNat < 8 ∧ (coordCol b).toNat < 12) (by decide) b h

/-- The clamp of R206 never changes the value. -/
theorem currentOf_eq (b : Byte) : currentOf b = b.toNat * 500 / 255 := by
  have := b.isLt
  unfold currentOf
  omega

end Sys2Proof.Machine
end

