-- ==== Sys2Proof/Laws/Fold.lean ====
section
/-! SUPPORT. The laws of the XOR fold. -/

namespace Sys2Proof.Machine

theorem foldl_xor_start (l : List Byte) (x : Byte) :
    l.foldl (· ^^^ ·) x = x ^^^ l.foldl (· ^^^ ·) 0x00#8 := by
  induction l generalizing x with
  | nil => simp
  | cons b l ih => rw [List.foldl_cons, ih, List.foldl_cons, ih (0x00#8 ^^^ b)]; simp [BitVec.xor_assoc]

/-- The fold of all the bytes of a list. -/
theorem fold_length (l : List Byte) : fold l l.length = l.foldl (· ^^^ ·) 0x00#8 := by simp [fold]

@[simp] theorem fold_zero (l : List Byte) : fold l 0 = 0x00#8 := rfl

theorem fold_cons_succ (b : Byte) (l : List Byte) (k : Nat) :
    fold (b :: l) (k + 1) = b ^^^ fold l k := by
  simp only [fold, List.take_succ_cons, List.foldl_cons]
  rw [foldl_xor_start]; simp

/-- One more byte folds into the checksum. -/
theorem fold_succ (l : List Byte) (k : Nat) (h : k < l.length) :
    fold l (k + 1) = fold l k ^^^ l.getD k 0 := by
  induction l generalizing k with
  | nil => simp at h
  | cons b l ih =>
    cases k with
    | zero => simp [fold_cons_succ]
    | succ k =>
      rw [fold_cons_succ, fold_cons_succ, ih k (by simpa using h)]
      simp [BitVec.xor_assoc]

/-- Only the first `k` bytes are folded. -/
theorem fold_append_left (a b : List Byte) : fold (a ++ b) a.length = fold a a.length := by
  simp [fold]

/-- A byte sequence closed by its own fold folds to zero. -/
theorem fold_closed (a : List Byte) :
    fold (a ++ [fold a a.length]) (a.length + 1) = 0x00#8 := by
  rw [fold_succ _ _ (by simp), fold_append_left]
  simp

theorem fold_set (l : List Byte) (j : Nat) (v : Byte) (h : j < l.length) :
    fold (l.set j v) l.length = fold l l.length ^^^ (l.getD j 0 ^^^ v) := by
  induction l generalizing j with
  | nil => simp at h
  | cons b l ih =>
    cases j with
    | zero =>
      simp only [List.set_cons_zero, List.length_cons, fold_cons_succ, List.getD_cons_zero]
      rw [BitVec.xor_comm (b ^^^ fold l l.length), BitVec.xor_comm b v, BitVec.xor_assoc,
        ← BitVec.xor_assoc b, BitVec.xor_self, BitVec.zero_xor]
    | succ j =>
      simp only [List.set_cons_succ, List.length_cons, fold_cons_succ, List.getD_cons_succ]
      rw [ih j (by simpa using h), BitVec.xor_assoc]

theorem fold_set_ne (l : List Byte) (j : Nat) (v : Byte) (h : j < l.length) (hv : v ≠ l.getD j 0) :
    fold (l.set j v) l.length ≠ fold l l.length := by
  rw [fold_set l j v h]
  intro he
  have : l.getD j 0 ^^^ v = 0#8 := by
    have := congrArg (fold l l.length ^^^ ·) he
    simpa [← BitVec.xor_assoc] using this
  exact hv (by simpa using (BitVec.xor_eq_zero_iff.1 this).symm)

/-- The order of the bytes does not change the fold. -/
theorem fold_perm {a b : List Byte} (h : a.Perm b) : fold a a.length = fold b b.length := by
  rw [fold_length, fold_length]
  induction h with
  | nil => rfl
  | cons x _ ih => rw [List.foldl_cons, List.foldl_cons, foldl_xor_start, ih, ← foldl_xor_start]
  | swap x y l => simp [BitVec.xor_comm]
  | trans _ _ ih1 ih2 => rw [ih1, ih2]

end Sys2Proof.Machine
end

