-- ==== Sys2Proof/Laws/Memory.lean ====
section
/-! SUPPORT. The laws of the byte buffers: a read after a write, the canonical form is kept, two
canonical buffers that read alike are equal. -/

namespace Sys2Proof.Machine

@[simp] theorem Memory.read_nil (i : Nat) : Memory.read [] i = 0 := rfl

theorem Memory.read_cons (a : Nat) (v : Byte) (m : Memory) (i : Nat) :
    Memory.read ((a, v) :: m) i = if a = i then v else Memory.read m i := rfl

theorem Memory.read_insert (i : Nat) (v : Byte) (m : Memory) (j : Nat) (h : ∀ c ∈ m, c.1 ≠ i) :
    Memory.read (Memory.insert i v m) j = if i = j then v else Memory.read m j := by
  induction m with
  | nil => rfl
  | cons c m ih =>
    obtain ⟨a, w⟩ := c
    have ha : a ≠ i := h (a, w) (by simp)
    have ih := ih (fun c hc => h c (List.mem_cons_of_mem _ hc))
    by_cases hlt : i < a
    · simp [Memory.insert, hlt, Memory.read_cons]
    · simp only [Memory.insert, hlt, if_false, Memory.read_cons, ih]
      by_cases haj : a = j
      · subst haj; simp [Ne.symm ha]
      · simp [haj]

theorem Memory.read_filter (i : Nat) (m : Memory) (j : Nat) :
    Memory.read (m.filter (fun c => c.1 != i)) j = if i = j then 0 else Memory.read m j := by
  induction m with
  | nil => simp
  | cons c m ih =>
    obtain ⟨a, w⟩ := c
    by_cases hai : a = i
    · subst hai
      by_cases haj : a = j <;> simp_all [Memory.read_cons]
    · by_cases haj : a = j
      · subst haj; simp [hai, Memory.read_cons, Ne.symm hai]
      · simp [hai, Memory.read_cons, haj, ih]

/-- A read after a write inside the buffer: the byte written at its index, every other byte as it
was. -/
theorem Memory.read_write (m : Memory) {i : Nat} (v : Byte) (j : Nat) (h : i < Config.bufSize) :
    Memory.read (Memory.write m i v) j = if i = j then v else Memory.read m j := by
  unfold Memory.write
  simp only [h, if_true]
  by_cases hv : v = 0
  · subst hv; simp [Memory.read_filter]
  · simp only [hv, if_false]
    rw [Memory.read_insert _ _ _ _ (by intro c hc; simpa using (List.mem_filter.1 hc).2),
      Memory.read_filter]
    by_cases hij : i = j <;> simp [hij]

theorem Memory.write_beyond (m : Memory) {i : Nat} (v : Byte) (h : ¬ i < Config.bufSize) :
    Memory.write m i v = m := by simp [Memory.write, h]

/-- A read after a run of writes that fits the buffer: the bytes written at their indices, every
other byte as it was. -/
theorem Memory.read_writeBytes (l : List Byte) (m : Memory) (i j : Nat)
    (h : i + l.length ≤ Config.bufSize) :
    Memory.read (Memory.writeBytes m i l) j
      = if i ≤ j ∧ j < i + l.length then l.getD (j - i) 0 else Memory.read m j := by
  induction l generalizing m i with
  | nil => simp [Memory.writeBytes]
  | cons b bs ih =>
    simp only [List.length_cons] at h
    rw [Memory.writeBytes, ih _ _ (by omega), Memory.read_write _ _ _ (by omega)]
    by_cases hij : i = j
    · subst hij; simp
    · by_cases hle : i ≤ j
      · obtain ⟨k, rfl⟩ : ∃ k, j = i + 1 + k := ⟨j - (i + 1), by omega⟩
        have e1 : i + 1 + k - (i + 1) = k := by omega
        have e2 : i + 1 + k - i = k + 1 := by omega
        simp only [e1, e2, List.getD_cons_succ, hij, if_false, List.length_cons]
        congr 1
        exact propext ⟨fun h => ⟨by omega, by omega⟩, fun h => ⟨by omega, by omega⟩⟩
      · have h1 : ¬ (i + 1 ≤ j ∧ j < i + 1 + bs.length) := by omega
        have h2 : ¬ (i ≤ j ∧ j < i + (b :: bs).length) := by omega
        rw [if_neg h1, if_neg h2, if_neg hij]

@[simp] theorem Memory.length_bytes (m : Memory) (n : Nat) : (Memory.bytes m n).length = n := by
  simp [Memory.bytes]

theorem Memory.getD_bytes (m : Memory) (n i : Nat) (h : i < n) :
    (Memory.bytes m n).getD i 0 = Memory.read m i := by
  simp [Memory.bytes, List.getD, h]

/-- The bytes just written from index 0 are read back as they were given. -/
theorem Memory.bytes_writeBytes (m : Memory) (l : List Byte) (h : l.length ≤ Config.bufSize) :
    Memory.bytes (Memory.writeBytes m 0 l) l.length = l := by
  apply List.ext_getElem
  · simp
  · intro i h1 h2
    simp only [Memory.bytes, List.getElem_map, List.getElem_range]
    rw [Memory.read_writeBytes _ _ _ _ (by simpa using h)]
    simp [h2]

/-! ### The canonical form -/

theorem Memory.wfFrom_mono {lo lo' : Nat} {m : Memory} (h : Memory.wfFrom lo m = true)
    (hl : lo' ≤ lo) : Memory.wfFrom lo' m = true := by
  cases m with
  | nil => rfl
  | cons c m =>
    simp only [Memory.wfFrom, Bool.and_eq_true, decide_eq_true_eq] at h ⊢
    exact ⟨⟨⟨by omega, h.1.1.2⟩, h.1.2⟩, h.2⟩

theorem Memory.wfFrom_filter (i : Nat) {lo : Nat} {m : Memory} (h : Memory.wfFrom lo m = true) :
    Memory.wfFrom lo (m.filter (fun c => c.1 != i)) = true := by
  induction m generalizing lo with
  | nil => rfl
  | cons c m ih =>
    obtain ⟨a, w⟩ := c
    simp only [Memory.wfFrom, Bool.and_eq_true, decide_eq_true_eq] at h
    by_cases hai : a = i
    · simp only [hai, List.filter_cons, bne_self_eq_false]
      exact Memory.wfFrom_mono (ih h.2) (by omega)
    · simp [hai, Memory.wfFrom, ih h.2, h.1.1.1, h.1.1.2]
      simpa using h.1.2

theorem Memory.wfFrom_insert {i : Nat} {v : Byte} (hi : i < Config.bufSize) (hv : v ≠ 0) {lo : Nat}
    {m : Memory} (h : Memory.wfFrom lo m = true) (hne : ∀ c ∈ m, c.1 ≠ i) (hlo : lo ≤ i) :
    Memory.wfFrom lo (Memory.insert i v m) = true := by
  induction m generalizing lo with
  | nil =>
    simp only [Memory.insert, Memory.wfFrom, Bool.and_eq_true, decide_eq_true_eq, bne_iff_ne]
    exact ⟨⟨⟨hlo, hi⟩, hv⟩, trivial⟩
  | cons c m ih =>
    obtain ⟨a, w⟩ := c
    have ha : a ≠ i := hne (a, w) (by simp)
    by_cases hlt : i < a
    · simp only [Memory.insert, hlt, if_true]
      simp only [Memory.wfFrom, Bool.and_eq_true, decide_eq_true_eq, bne_iff_ne] at h ⊢
      exact ⟨⟨⟨hlo, hi⟩, hv⟩, ⟨⟨by omega, h.1.1.2⟩, h.1.2⟩, h.2⟩
    · simp only [Memory.insert, hlt, if_false]
      simp only [Memory.wfFrom, Bool.and_eq_true, decide_eq_true_eq, bne_iff_ne] at h ⊢
      exact ⟨h.1, ih h.2 (fun c hc => hne c (List.mem_cons_of_mem _ hc)) (by omega)⟩

/-- Every write keeps the canonical form. -/
theorem Memory.wf_write {m : Memory} (h : Memory.wf m = true) (i : Nat) (v : Byte) :
    Memory.wf (Memory.write m i v) = true := by
  unfold Memory.write Memory.wf at *
  by_cases hi : i < Config.bufSize
  · simp only [hi, if_true]
    by_cases hv : v = 0
    · simp only [hv, if_true]; exact Memory.wfFrom_filter i h
    · simp only [hv, if_false]
      exact Memory.wfFrom_insert hi hv (Memory.wfFrom_filter i h)
        (by intro c hc; simpa using (List.mem_filter.1 hc).2) (by omega)
  · simpa [hi] using h

theorem Memory.wf_writeBytes {m : Memory} (h : Memory.wf m = true) (i : Nat) (l : List Byte) :
    Memory.wf (Memory.writeBytes m i l) = true := by
  induction l generalizing m i with
  | nil => exact h
  | cons b bs ih => exact ih (Memory.wf_write h i b) (i + 1)

theorem Memory.wf_ofBytes (l : List Byte) : Memory.wf (Memory.ofBytes l) = true :=
  Memory.wf_writeBytes rfl 0 l

@[simp] theorem Memory.wf_nil : Memory.wf [] = true := rfl

theorem Memory.read_eq_zero_of_lt {lo i : Nat} {m : Memory} (h : Memory.wfFrom lo m = true)
    (hi : i < lo) : Memory.read m i = 0 := by
  induction m generalizing lo with
  | nil => rfl
  | cons c m ih =>
    obtain ⟨a, w⟩ := c
    simp only [Memory.wfFrom, Bool.and_eq_true, decide_eq_true_eq] at h
    have : a ≠ i := by omega
    simp [Memory.read_cons, this, ih h.2 (by omega)]

/-- No index at or beyond 255 holds a byte. -/
theorem Memory.read_beyond {lo i : Nat} {m : Memory} (h : Memory.wfFrom lo m = true)
    (hi : Config.bufSize ≤ i) : Memory.read m i = 0 := by
  induction m generalizing lo with
  | nil => rfl
  | cons c m ih =>
    obtain ⟨a, w⟩ := c
    simp only [Memory.wfFrom, Bool.and_eq_true, decide_eq_true_eq] at h
    have : a ≠ i := by omega
    simp [Memory.read_cons, this, ih h.2]

theorem Memory.ext_from {lo : Nat} {m n : Memory} (hm : Memory.wfFrom lo m = true)
    (hn : Memory.wfFrom lo n = true) (h : ∀ i, Memory.read m i = Memory.read n i) : m = n := by
  induction m generalizing lo n with
  | nil =>
    cases n with
    | nil => rfl
    | cons c n =>
      obtain ⟨a, w⟩ := c
      have := h a
      simp [Memory.read_cons] at this
      simp [Memory.wfFrom, ← this] at hn
  | cons c m ih =>
    obtain ⟨a, w⟩ := c
    have hm' := hm
    simp only [Memory.wfFrom, Bool.and_eq_true, decide_eq_true_eq, bne_iff_ne] at hm'
    cases n with
    | nil =>
      have := h a
      simp [Memory.read_cons] at this
      exact absurd this hm'.1.2
    | cons d n =>
      obtain ⟨b, x⟩ := d
      have hn' := hn
      simp only [Memory.wfFrom, Bool.and_eq_true, decide_eq_true_eq, bne_iff_ne] at hn'
      have hab : a = b := by
        rcases Nat.lt_trichotomy a b with hlt | heq | hgt
        · have := h a
          rw [Memory.read_cons, if_pos rfl, Memory.read_cons, if_neg (by omega),
            Memory.read_eq_zero_of_lt hn'.2 (by omega)] at this
          exact absurd this hm'.1.2
        · exact heq
        · have := h b
          rw [Memory.read_cons, if_neg (by omega), Memory.read_eq_zero_of_lt hm'.2 (by omega),
            Memory.read_cons, if_pos rfl] at this
          exact absurd this.symm hn'.1.2
      subst hab
      have hwx : w = x := by simpa [Memory.read_cons] using h a
      subst hwx
      refine congrArg ((a, w) :: ·) (ih hm'.2 hn'.2 fun i => ?_)
      by_cases hi : a = i
      · subst hi
        rw [Memory.read_eq_zero_of_lt hm'.2 (by omega), Memory.read_eq_zero_of_lt hn'.2 (by omega)]
      · simpa [Memory.read_cons, hi] using h i

/-- Two buffers in canonical form that read alike are equal data. -/
theorem Memory.ext_of_read {m n : Memory} (hm : Memory.wf m = true) (hn : Memory.wf n = true)
    (h : ∀ i, Memory.read m i = Memory.read n i) : m = n := Memory.ext_from hm hn h

end Sys2Proof.Machine
end

