-- ==== Sys2Proof/Laws/State.lean ====
section
/-! SUPPORT. One lemma per field for each small state update, so that no later proof unfolds one. -/

namespace Sys2Proof.Machine

@[simp] theorem raise_status (code : Nibble) (s : State) : (raise code s).status = code := rfl
@[simp] theorem raise_csum (code : Nibble) (s : State) : (raise code s).csum = s.csum := rfl
@[simp] theorem raise_frame (code : Nibble) (s : State) : (raise code s).frame = s.frame := rfl
@[simp] theorem raise_frameLen (code : Nibble) (s : State) : (raise code s).frameLen = s.frameLen := rfl
@[simp] theorem raise_resp (code : Nibble) (s : State) : (raise code s).resp = s.resp := rfl
@[simp] theorem raise_respLen (code : Nibble) (s : State) : (raise code s).respLen = s.respLen := rfl
@[simp] theorem raise_coord (code : Nibble) (s : State) : (raise code s).coord = s.coord := rfl
@[simp] theorem raise_rowOut (code : Nibble) (s : State) : (raise code s).rowOut = s.rowOut := rfl
@[simp] theorem raise_colOut (code : Nibble) (s : State) : (raise code s).colOut = s.colOut := rfl
@[simp] theorem raise_coordValid (code : Nibble) (s : State) : (raise code s).coordValid = s.coordValid := rfl
@[simp] theorem raise_done (code : Nibble) (s : State) : (raise code s).done = s.done := rfl
@[simp] theorem raise_inFlight (code : Nibble) (s : State) : (raise code s).inFlight = s.inFlight := rfl
@[simp] theorem raise_req (code : Nibble) (s : State) : (raise code s).req = s.req := rfl
@[simp] theorem raise_rst (code : Nibble) (s : State) : (raise code s).rst = s.rst := rfl
@[simp] theorem raise_ports (code : Nibble) (s : State) : (raise code s).ports = s.ports := rfl
@[simp] theorem raise_call (code : Nibble) (s : State) : (raise code s).call = s.call := rfl
@[simp] theorem raise_apiStatus (code : Nibble) (s : State) : (raise code s).apiStatus = s.apiStatus := rfl
@[simp] theorem raise_version (code : Nibble) (s : State) : (raise code s).version = s.version := rfl
@[simp] theorem raise_currentMA (code : Nibble) (s : State) : (raise code s).currentMA = s.currentMA := rfl
@[simp] theorem raise_active (code : Nibble) (s : State) : (raise code s).active = s.active := rfl
@[simp] theorem raise_optoLine (code : Nibble) (s : State) : (raise code s).optoLine = s.optoLine := rfl
@[simp] theorem raise_replies (code : Nibble) (s : State) : (raise code s).replies = s.replies := rfl
@[simp] theorem raise_written (code : Nibble) (s : State) : (raise code s).written = s.written := rfl
@[simp] theorem raise_draws (code : Nibble) (s : State) : (raise code s).draws = s.draws := rfl

@[simp] theorem finish_status (s : State) : (finish s).status = s.status := rfl
@[simp] theorem finish_csum (s : State) : (finish s).csum = s.csum := rfl
@[simp] theorem finish_frame (s : State) : (finish s).frame = s.frame := rfl
@[simp] theorem finish_frameLen (s : State) : (finish s).frameLen = s.frameLen := rfl
@[simp] theorem finish_resp (s : State) : (finish s).resp = s.resp := rfl
@[simp] theorem finish_respLen (s : State) : (finish s).respLen = s.respLen := rfl
@[simp] theorem finish_coord (s : State) : (finish s).coord = s.coord := rfl
@[simp] theorem finish_rowOut (s : State) : (finish s).rowOut = s.rowOut := rfl
@[simp] theorem finish_colOut (s : State) : (finish s).colOut = s.colOut := rfl
@[simp] theorem finish_coordValid (s : State) : (finish s).coordValid = s.coordValid := rfl
@[simp] theorem finish_done (s : State) : (finish s).done = true := rfl
@[simp] theorem finish_inFlight (s : State) : (finish s).inFlight = s.inFlight := rfl
@[simp] theorem finish_req (s : State) : (finish s).req = s.req := rfl
@[simp] theorem finish_rst (s : State) : (finish s).rst = s.rst := rfl
@[simp] theorem finish_ports (s : State) : (finish s).ports = s.ports := rfl
@[simp] theorem finish_call (s : State) : (finish s).call = s.call := rfl
@[simp] theorem finish_apiStatus (s : State) : (finish s).apiStatus = s.apiStatus := rfl
@[simp] theorem finish_version (s : State) : (finish s).version = s.version := rfl
@[simp] theorem finish_currentMA (s : State) : (finish s).currentMA = s.currentMA := rfl
@[simp] theorem finish_active (s : State) : (finish s).active = s.active := rfl
@[simp] theorem finish_optoLine (s : State) : (finish s).optoLine = s.optoLine := rfl
@[simp] theorem finish_replies (s : State) : (finish s).replies = s.replies := rfl
@[simp] theorem finish_written (s : State) : (finish s).written = s.written := rfl
@[simp] theorem finish_draws (s : State) : (finish s).draws = s.draws := rfl

@[simp] theorem accept_status (s : State) : (accept s).status = s.status := rfl
@[simp] theorem accept_csum (s : State) : (accept s).csum = s.csum := rfl
@[simp] theorem accept_frame (s : State) : (accept s).frame = s.frame := rfl
@[simp] theorem accept_frameLen (s : State) : (accept s).frameLen = s.frameLen := rfl
@[simp] theorem accept_resp (s : State) : (accept s).resp = s.resp := rfl
@[simp] theorem accept_respLen (s : State) : (accept s).respLen = s.respLen := rfl
@[simp] theorem accept_coord (s : State) : (accept s).coord = s.coord := rfl
@[simp] theorem accept_rowOut (s : State) : (accept s).rowOut = s.rowOut := rfl
@[simp] theorem accept_colOut (s : State) : (accept s).colOut = s.colOut := rfl
@[simp] theorem accept_coordValid (s : State) : (accept s).coordValid = s.coordValid := rfl
@[simp] theorem accept_done (s : State) : (accept s).done = s.done := rfl
@[simp] theorem accept_inFlight (s : State) : (accept s).inFlight = none := rfl
@[simp] theorem accept_req (s : State) : (accept s).req = false := rfl
@[simp] theorem accept_rst (s : State) : (accept s).rst = s.rst := rfl
@[simp] theorem accept_ports (s : State) : (accept s).ports = s.ports := rfl
@[simp] theorem accept_call (s : State) : (accept s).call = none := rfl
@[simp] theorem accept_apiStatus (s : State) : (accept s).apiStatus = s.apiStatus := rfl
@[simp] theorem accept_version (s : State) : (accept s).version = s.version := rfl
@[simp] theorem accept_currentMA (s : State) : (accept s).currentMA = s.currentMA := rfl
@[simp] theorem accept_active (s : State) : (accept s).active = s.active := rfl
@[simp] theorem accept_optoLine (s : State) : (accept s).optoLine = s.optoLine := rfl
@[simp] theorem accept_replies (s : State) : (accept s).replies = s.replies := rfl
@[simp] theorem accept_written (s : State) : (accept s).written = s.written := rfl
@[simp] theorem accept_draws (s : State) : (accept s).draws = s.draws := rfl

@[simp] theorem writeOut_status (s : State) : (writeOut s).status = s.status := rfl
@[simp] theorem writeOut_csum (s : State) : (writeOut s).csum = s.csum := rfl
@[simp] theorem writeOut_frame (s : State) : (writeOut s).frame = s.frame := rfl
@[simp] theorem writeOut_frameLen (s : State) : (writeOut s).frameLen = s.frameLen := rfl
@[simp] theorem writeOut_resp (s : State) : (writeOut s).resp = s.resp := rfl
@[simp] theorem writeOut_respLen (s : State) : (writeOut s).respLen = s.respLen := rfl
@[simp] theorem writeOut_coord (s : State) : (writeOut s).coord = s.coord := rfl
@[simp] theorem writeOut_rowOut (s : State) : (writeOut s).rowOut = s.rowOut := rfl
@[simp] theorem writeOut_colOut (s : State) : (writeOut s).colOut = s.colOut := rfl
@[simp] theorem writeOut_coordValid (s : State) : (writeOut s).coordValid = s.coordValid := rfl
@[simp] theorem writeOut_done (s : State) : (writeOut s).done = s.done := rfl
@[simp] theorem writeOut_inFlight (s : State) : (writeOut s).inFlight = s.inFlight := rfl
@[simp] theorem writeOut_req (s : State) : (writeOut s).req = s.req := rfl
@[simp] theorem writeOut_rst (s : State) : (writeOut s).rst = s.rst := rfl
@[simp] theorem writeOut_ports (s : State) : (writeOut s).ports = s.ports := rfl
@[simp] theorem writeOut_call (s : State) : (writeOut s).call = s.call := rfl
@[simp] theorem writeOut_apiStatus (s : State) : (writeOut s).apiStatus = s.apiStatus := rfl
@[simp] theorem writeOut_version (s : State) : (writeOut s).version = s.version := rfl
@[simp] theorem writeOut_currentMA (s : State) : (writeOut s).currentMA = s.currentMA := rfl
@[simp] theorem writeOut_active (s : State) : (writeOut s).active = s.active := rfl
@[simp] theorem writeOut_optoLine (s : State) : (writeOut s).optoLine = s.optoLine := rfl
@[simp] theorem writeOut_replies (s : State) : (writeOut s).replies = s.replies := rfl
@[simp] theorem writeOut_written (s : State) : (writeOut s).written = s.written ++ [frameOut s] := rfl
@[simp] theorem writeOut_draws (s : State) : (writeOut s).draws = s.draws := rfl

@[simp] theorem clearMotorStatus_status (s : State) : (clearMotorStatus s).status = s.status := rfl
@[simp] theorem clearMotorStatus_csum (s : State) : (clearMotorStatus s).csum = s.csum := rfl
@[simp] theorem clearMotorStatus_frame (s : State) : (clearMotorStatus s).frame = s.frame := rfl
@[simp] theorem clearMotorStatus_frameLen (s : State) : (clearMotorStatus s).frameLen = s.frameLen := rfl
@[simp] theorem clearMotorStatus_resp (s : State) : (clearMotorStatus s).resp = s.resp := rfl
@[simp] theorem clearMotorStatus_respLen (s : State) : (clearMotorStatus s).respLen = s.respLen := rfl
@[simp] theorem clearMotorStatus_coord (s : State) : (clearMotorStatus s).coord = s.coord := rfl
@[simp] theorem clearMotorStatus_rowOut (s : State) : (clearMotorStatus s).rowOut = s.rowOut := rfl
@[simp] theorem clearMotorStatus_colOut (s : State) : (clearMotorStatus s).colOut = s.colOut := rfl
@[simp] theorem clearMotorStatus_coordValid (s : State) : (clearMotorStatus s).coordValid = s.coordValid := rfl
@[simp] theorem clearMotorStatus_done (s : State) : (clearMotorStatus s).done = s.done := rfl
@[simp] theorem clearMotorStatus_inFlight (s : State) : (clearMotorStatus s).inFlight = s.inFlight := rfl
@[simp] theorem clearMotorStatus_req (s : State) : (clearMotorStatus s).req = s.req := rfl
@[simp] theorem clearMotorStatus_rst (s : State) : (clearMotorStatus s).rst = s.rst := rfl
@[simp] theorem clearMotorStatus_ports (s : State) : (clearMotorStatus s).ports = s.ports := rfl
@[simp] theorem clearMotorStatus_call (s : State) : (clearMotorStatus s).call = s.call := rfl
@[simp] theorem clearMotorStatus_apiStatus (s : State) : (clearMotorStatus s).apiStatus = s.apiStatus := rfl
@[simp] theorem clearMotorStatus_version (s : State) : (clearMotorStatus s).version = s.version := rfl
@[simp] theorem clearMotorStatus_currentMA (s : State) : (clearMotorStatus s).currentMA = 0 := rfl
@[simp] theorem clearMotorStatus_active (s : State) : (clearMotorStatus s).active = [] := rfl
@[simp] theorem clearMotorStatus_optoLine (s : State) : (clearMotorStatus s).optoLine = s.optoLine := rfl
@[simp] theorem clearMotorStatus_replies (s : State) : (clearMotorStatus s).replies = s.replies := rfl
@[simp] theorem clearMotorStatus_written (s : State) : (clearMotorStatus s).written = s.written := rfl
@[simp] theorem clearMotorStatus_draws (s : State) : (clearMotorStatus s).draws = s.draws := rfl

@[simp] theorem assertReset_status (s : State) : (assertReset s).status = 0 := rfl
@[simp] theorem assertReset_csum (s : State) : (assertReset s).csum = 0 := rfl
@[simp] theorem assertReset_frame (s : State) : (assertReset s).frame = [] := rfl
@[simp] theorem assertReset_frameLen (s : State) : (assertReset s).frameLen = 0 := rfl
@[simp] theorem assertReset_resp (s : State) : (assertReset s).resp = [] := rfl
@[simp] theorem assertReset_respLen (s : State) : (assertReset s).respLen = 0 := rfl
@[simp] theorem assertReset_coord (s : State) : (assertReset s).coord = 0 := rfl
@[simp] theorem assertReset_rowOut (s : State) : (assertReset s).rowOut = 0 := rfl
@[simp] theorem assertReset_colOut (s : State) : (assertReset s).colOut = 0 := rfl
@[simp] theorem assertReset_coordValid (s : State) : (assertReset s).coordValid = false := rfl
@[simp] theorem assertReset_done (s : State) : (assertReset s).done = false := rfl
@[simp] theorem assertReset_inFlight (s : State) : (assertReset s).inFlight = none := rfl
@[simp] theorem assertReset_req (s : State) : (assertReset s).req = s.req := rfl
@[simp] theorem assertReset_rst (s : State) : (assertReset s).rst = false := rfl
@[simp] theorem assertReset_ports (s : State) : (assertReset s).ports = s.ports := rfl
@[simp] theorem assertReset_call (s : State) : (assertReset s).call = s.call := rfl
@[simp] theorem assertReset_apiStatus (s : State) : (assertReset s).apiStatus = s.apiStatus := rfl
@[simp] theorem assertReset_version (s : State) : (assertReset s).version = s.version := rfl
@[simp] theorem assertReset_currentMA (s : State) : (assertReset s).currentMA = s.currentMA := rfl
@[simp] theorem assertReset_active (s : State) : (assertReset s).active = s.active := rfl
@[simp] theorem assertReset_optoLine (s : State) : (assertReset s).optoLine = s.optoLine := rfl
@[simp] theorem assertReset_replies (s : State) : (assertReset s).replies = s.replies := rfl
@[simp] theorem assertReset_written (s : State) : (assertReset s).written = s.written := rfl
@[simp] theorem assertReset_draws (s : State) : (assertReset s).draws = s.draws := rfl

@[simp] theorem endCall_status (x : State × ErrorKind) : (endCall x).status = x.1.status := rfl
@[simp] theorem endCall_csum (x : State × ErrorKind) : (endCall x).csum = x.1.csum := rfl
@[simp] theorem endCall_frame (x : State × ErrorKind) : (endCall x).frame = x.1.frame := rfl
@[simp] theorem endCall_frameLen (x : State × ErrorKind) : (endCall x).frameLen = x.1.frameLen := rfl
@[simp] theorem endCall_resp (x : State × ErrorKind) : (endCall x).resp = x.1.resp := rfl
@[simp] theorem endCall_respLen (x : State × ErrorKind) : (endCall x).respLen = x.1.respLen := rfl
@[simp] theorem endCall_coord (x : State × ErrorKind) : (endCall x).coord = x.1.coord := rfl
@[simp] theorem endCall_rowOut (x : State × ErrorKind) : (endCall x).rowOut = x.1.rowOut := rfl
@[simp] theorem endCall_colOut (x : State × ErrorKind) : (endCall x).colOut = x.1.colOut := rfl
@[simp] theorem endCall_coordValid (x : State × ErrorKind) : (endCall x).coordValid = x.1.coordValid := rfl
@[simp] theorem endCall_done (x : State × ErrorKind) : (endCall x).done = x.1.done := rfl
@[simp] theorem endCall_inFlight (x : State × ErrorKind) : (endCall x).inFlight = x.1.inFlight := rfl
@[simp] theorem endCall_req (x : State × ErrorKind) : (endCall x).req = x.1.req := rfl
@[simp] theorem endCall_rst (x : State × ErrorKind) : (endCall x).rst = x.1.rst := rfl
@[simp] theorem endCall_ports (x : State × ErrorKind) : (endCall x).ports = x.1.ports := rfl
@[simp] theorem endCall_call (x : State × ErrorKind) : (endCall x).call = x.1.call := rfl
@[simp] theorem endCall_apiStatus (x : State × ErrorKind) : (endCall x).apiStatus = x.2 := rfl
@[simp] theorem endCall_version (x : State × ErrorKind) : (endCall x).version = x.1.version := rfl
@[simp] theorem endCall_currentMA (x : State × ErrorKind) : (endCall x).currentMA = x.1.currentMA := rfl
@[simp] theorem endCall_active (x : State × ErrorKind) : (endCall x).active = x.1.active := rfl
@[simp] theorem endCall_optoLine (x : State × ErrorKind) : (endCall x).optoLine = x.1.optoLine := rfl
@[simp] theorem endCall_replies (x : State × ErrorKind) : (endCall x).replies = x.1.replies := rfl
@[simp] theorem endCall_written (x : State × ErrorKind) : (endCall x).written = x.1.written := rfl
@[simp] theorem endCall_draws (x : State × ErrorKind) : (endCall x).draws = x.1.draws := rfl

end Sys2Proof.Machine
end

