-- ==== Sys2Proof/Laws/Ops.lean ====
section
/-! SUPPORT. For each shared operation, once, everything it can do. -/

namespace Sys2Proof.Machine

/-! ### The frame -/

@[simp] theorem length_frameBody (c m : Byte) (d : List Byte) :
    (frameBody c m d).length = d.length + 4 := by simp [frameBody]

@[simp] theorem length_frameBytes (c m : Byte) (d : List Byte) :
    (frameBytes c m d).length = d.length + 5 := by simp [frameBytes]

theorem frameBytes_zero (c m : Byte) (d : List Byte) : (frameBytes c m d).getD 0 0 = 0x35#8 := rfl
theorem frameBytes_one (c m : Byte) (d : List Byte) : (frameBytes c m d).getD 1 0 = c := rfl
theorem frameBytes_two (c m : Byte) (d : List Byte) :
    (frameBytes c m d).getD 2 0 = BitVec.ofNat 8 (d.length + 5) := rfl
theorem frameBytes_three (c m : Byte) (d : List Byte) : (frameBytes c m d).getD 3 0 = m := rfl

theorem frameBytes_data (c m : Byte) (d : List Byte) {i : Nat} (h : i < d.length) :
    (frameBytes c m d).getD (4 + i) 0 = d.getD i 0 := by
  rw [show 4 + i = i + 4 from Nat.add_comm 4 i]
  show (d ++ [frameChecksum c m d]).getD i 0 = d.getD i 0
  rw [List.getD, List.getElem?_append_left h, List.getD]

theorem frameBytes_last (c m : Byte) (d : List Byte) :
    (frameBytes c m d).getD (d.length + 4) 0 = frameChecksum c m d := by
  show (d ++ [frameChecksum c m d]).getD d.length 0 = frameChecksum c m d
  simp [List.getD]

/-- The checksum byte is the fold of the bytes before it. -/
theorem frameChecksum_eq (c m : Byte) (d : List Byte) :
    frameChecksum c m d = fold (frameBytes c m d) (d.length + 4) := by
  have h : (frameBody c m d).length = d.length + 4 := by simp
  rw [frameChecksum, frameBytes, ← h, fold_append_left]

theorem fold_frameBytes (c m : Byte) (d : List Byte) :
    fold (frameBytes c m d) (d.length + 5) = 0x00#8 := by
  have h : (frameBody c m d).length = d.length + 4 := by simp
  have := fold_closed (frameBody c m d)
  rwa [h] at this

/-- What ENCODE builds is a valid K1 frame. -/
theorem validFrame_frameBytes (c m : Byte) (d : List Byte) (h : d.length ≤ 250) :
    ValidFrame (frameBytes c m d) where
  atLeastFive := by simp
  atMost255 := by simp; omega
  startsWithStx := rfl
  lengthByte := by rw [frameBytes_two]; simp; omega
  foldsToZero := by rw [length_frameBytes]; exact fold_frameBytes c m d

/-! ### The block operations -/

/-- ENCODE that fits. -/
theorem runEncode_fits {d : List Byte} (h : d.length ≤ 250) (c m : Byte) (s : State) :
    runEncode c m d s = { s with frame := Memory.writeBytes s.frame 0 (frameBytes c m d)
                                 frameLen := BitVec.ofNat 8 (d.length + 5)
                                 csum := frameChecksum c m d, status := statusOk, done := true } := by
  have : ¬ d.length > Config.maxData := by simp [Config.maxData]; omega
  simp only [runEncode, this, if_false]; rfl

/-- ENCODE that is too long. -/
theorem runEncode_tooLong {d : List Byte} (h : 250 < d.length) (c m : Byte) (s : State) :
    runEncode c m d s = { s with frameLen := 0, status := statusInvalidLength, done := true } := by
  have : d.length > Config.maxData := h
  simp only [runEncode, this, if_true]; rfl

/-- DECODE that succeeds. -/
theorem runDecode_ok {ctx : Byte} {raw : List Byte} (h : decodeStatus ctx raw = statusOk)
    (s : State) :
    runDecode ctx raw s = { s with resp := Memory.writeBytes s.resp 0 (decodePayload ctx raw)
                                   respLen := BitVec.ofNat 8 (decodePayload ctx raw).length
                                   status := statusOk, done := true } := by
  simp only [runDecode, h, if_true]; rfl

/-- DECODE that fails. -/
theorem runDecode_fails {ctx : Byte} {raw : List Byte} (h : decodeStatus ctx raw ≠ statusOk)
    (s : State) :
    runDecode ctx raw s = { s with respLen := 0, resp := unspecifiedResp s.draws
                                   draws := s.draws + 1, status := decodeStatus ctx raw
                                   done := true } := by
  simp only [runDecode, h, if_false, finish, raise]

@[simp] theorem runDecode_status (ctx : Byte) (raw : List Byte) (s : State) :
    (runDecode ctx raw s).status = decodeStatus ctx raw := by
  by_cases h : decodeStatus ctx raw = statusOk
  · rw [runDecode_ok h, h]
  · rw [runDecode_fails h]

theorem runXorfold_eq (l : List Byte) (s : State) :
    runXorfold l s = { s with csum := fold l l.length, status := statusOk, done := true } := rfl

/-- PACK inside the grid. -/
theorem runPack_inRange {row col : Byte} (h : coordInRange row col = true) (s : State) :
    runPack row col s = { s with coord := coordByte row col, status := statusOk, done := true } := by
  simp only [runPack, h, if_true]; rfl

/-- PACK outside the grid. -/
theorem runPack_outOfRange {row col : Byte} (h : coordInRange row col = false) (s : State) :
    runPack row col s
      = { s with coord := 0, status := statusInvalidMotorCoordinates, done := true } := by
  simp only [runPack, h]; rfl

theorem runUnpack_eq (b : Byte) (s : State) :
    runUnpack b s = { s with rowOut := coordRow b, colOut := coordCol b
                             coordValid := coordValidOf b, status := statusOk, done := true } := rfl

/-- The unspecified bytes of RESP are in canonical form, whatever they are. -/
theorem wf_unspecifiedResp (draw : Nat) : Memory.wf (unspecifiedResp draw) = true := by
  unfold unspecifiedResp; exact Memory.wf_ofBytes _

/-! ### DECODE's checks -/

/-- The broadcast path accepts exactly the buffers that are not empty. -/
theorem decodeStatus_broadcast (raw : List Byte) :
    decodeStatus 0x00#8 raw = if raw.length = 0 then statusInvalidLength else statusOk := rfl

/-- The validated path accepts exactly the buffers that pass the length check and the ordered
checks. -/
theorem decodeStatus_validated_ok {ctx : Byte} (hc : ctx ≠ 0x00#8) (raw : List Byte) :
    decodeStatus ctx raw = statusOk ↔
      5 ≤ raw.length ∧ raw.getD 0 0 = 0x35#8 ∧ raw.getD 1 0 = ctx ∧
        (raw.getD 2 0).toNat = raw.length ∧
        raw.getD (raw.length - 1) 0 = fold raw (raw.length - 1) := by
  have hb : ¬ ctx = Config.idBroadcast := hc
  unfold decodeStatus
  simp only [hb, if_false, Config.minValidatedFrame, Config.stx]
  by_cases h5 : raw.length < 5
  · simp only [h5, if_true, statusOk, statusInvalidLength]
    exact ⟨fun h => absurd h (by decide), fun h => absurd h.1 (by omega)⟩
  by_cases h0 : raw.getD 0 0 = 0x35#8
  · by_cases h1 : raw.getD 1 0 = ctx
    · by_cases h2 : (raw.getD 2 0).toNat = raw.length
      · by_cases h3 : raw.getD (raw.length - 1) 0 = fold raw (raw.length - 1)
        · simp only [h5, h0, h1, h2, h3, if_false, ne_eq, not_true_eq_false, and_true,
            true_iff]
          exact Nat.le_of_not_lt h5
        · simp only [h5, h0, h1, h2, h3, if_false, if_true, ne_eq, not_true_eq_false,
            not_false_eq_true, and_false, iff_false]
          decide
      · simp only [h5, h0, h1, h2, if_false, if_true, ne_eq, not_true_eq_false, not_false_eq_true,
          false_and, and_false, iff_false]
        decide
    · simp only [h5, h0, h1, if_false, if_true, ne_eq, not_true_eq_false, not_false_eq_true,
        false_and, and_false, iff_false]
      decide
  · simp only [h5, h0, if_false, if_true, ne_eq, not_false_eq_true, false_and, and_false,
      iff_false]
    decide

/-- DECODE reports one of five codes, and NEGATIVE_ACK is none of them (R233, R239). -/
theorem decodeStatus_codes (ctx : Byte) (raw : List Byte) :
    decodeStatus ctx raw = statusOk ∨ decodeStatus ctx raw = statusInvalidChecksum ∨
      decodeStatus ctx raw = statusMalformed ∨ decodeStatus ctx raw = statusInvalidSource ∨
      decodeStatus ctx raw = statusInvalidLength := by
  unfold decodeStatus
  repeat' split
  all_goals simp

/-- On the validated path the payload has `R - 4` bytes. -/
theorem length_decodePayload {ctx : Byte} {raw : List Byte} (hc : ctx ≠ 0x00#8)
    (h : decodeStatus ctx raw = statusOk) : (decodePayload ctx raw).length = raw.length - 4 := by
  obtain ⟨h5, _, _, h2, _⟩ := (decodeStatus_validated_ok hc raw).1 h
  have hb : ¬ ctx = Config.idBroadcast := hc
  simp only [decodePayload, hb, if_false, List.length_take, List.length_drop, h2]
  omega

/-- On the validated path `RESP[i]` is `raw[3 + i]`. -/
theorem getD_decodePayload {ctx : Byte} {raw : List Byte} (hc : ctx ≠ 0x00#8)
    (h : decodeStatus ctx raw = statusOk) {i : Nat} (hi : i < raw.length - 4) :
    (decodePayload ctx raw).getD i 0 = raw.getD (3 + i) 0 := by
  obtain ⟨h5, _, _, h2, _⟩ := (decodeStatus_validated_ok hc raw).1 h
  have hb : ¬ ctx = Config.idBroadcast := hc
  simp only [decodePayload, hb, if_false, h2]
  rw [List.getD, List.getElem?_take_of_lt hi, List.getElem?_drop, List.getD]

theorem length_decodePayload_le {ctx : Byte} {raw : List Byte} (hr : raw.length ≤ 255) :
    (decodePayload ctx raw).length ≤ 255 := by
  unfold decodePayload
  split
  · exact hr
  · simp only [List.length_take, List.length_drop]; omega

/-- DECODE of a frame ENCODE built accepts it, whatever the controller id but broadcast. -/
theorem decodeStatus_frameBytes {c : Byte} (hc : c ≠ 0x00#8) (m : Byte) {d : List Byte}
    (h : d.length ≤ 250) : decodeStatus c (frameBytes c m d) = statusOk := by
  have hv := validFrame_frameBytes c m d h
  refine (decodeStatus_validated_ok hc _).2
    ⟨hv.atLeastFive, hv.startsWithStx, frameBytes_one c m d, hv.lengthByte, ?_⟩
  rw [length_frameBytes]
  exact (frameBytes_last c m d).trans (frameChecksum_eq c m d)

/-! ### Ports -/

theorem portRx_driveReceived (raw : List Byte) (h : raw.length ≤ 255) (p : Ports) :
    portRx (driveReceived raw p) = raw := by
  have hn : raw.length % 256 = raw.length := Nat.mod_eq_of_lt (by omega)
  simp only [portRx, driveReceived, BitVec.toNat_ofNat]
  rw [show (2 : Nat) ^ 8 = 256 from rfl, hn]
  exact Memory.bytes_writeBytes _ _ h

theorem portData_driveEncode (c m : Byte) (d : List Byte) (h : d.length ≤ 255) (p : Ports) :
    portData (driveEncode c m d p) = d := by
  have hn : d.length % 256 = d.length := Nat.mod_eq_of_lt (by omega)
  simp only [portData, driveEncode, BitVec.toNat_ofNat]
  rw [show (2 : Nat) ^ 8 = 256 from rfl, hn]
  exact Memory.bytes_writeBytes _ _ h

theorem length_portData (p : Ports) : (portData p).length = p.dlen.toNat := by simp [portData]

theorem length_portRx (p : Ports) : (portRx p).length = p.rxCount.toNat := by simp [portRx]

/-! ### The exchange -/

/-- The frame ENCODE just built is what the host transmits. -/
theorem frameOut_runEncode {d : List Byte} (h : d.length ≤ 250) (c m : Byte) (s : State) :
    frameOut (runEncode c m d s) = frameBytes c m d := by
  have hn : (d.length + 5) % 256 = d.length + 5 := Nat.mod_eq_of_lt (by omega)
  rw [runEncode_fits h]
  simp only [frameOut, BitVec.toNat_ofNat]
  rw [show (2 : Nat) ^ 8 = 256 from rfl, hn, ← length_frameBytes c m d]
  exact Memory.bytes_writeBytes _ _ (by simp [Config.bufSize]; omega)

/-- The response data DECODE just extracted is what the host reads. -/
theorem respOut_runDecode {ctx : Byte} {raw : List Byte} (h : decodeStatus ctx raw = statusOk)
    (hr : raw.length ≤ 255) (s : State) :
    respOut (runDecode ctx raw s) = decodePayload ctx raw := by
  have hl := length_decodePayload_le (ctx := ctx) hr
  have hn : (decodePayload ctx raw).length % 256 = (decodePayload ctx raw).length :=
    Nat.mod_eq_of_lt (by omega)
  rw [runDecode_ok h]
  simp only [respOut, BitVec.toNat_ofNat]
  rw [show (2 : Nat) ^ 8 = 256 from rfl, hn]
  exact Memory.bytes_writeBytes _ _ hl

/-- Everything `EXCHANGE` can do, by what the transport does. -/
theorem exchange_cases (s : State) :
    (∃ raw, (nextReply s).1 = .bytes raw ∧
      exchange s = ({ writeOut (nextReply s).2 with
        ports := driveReceived (raw.take 255) (nextReply s).2.ports }, kindOk)) ∨
    ((nextReply s).1 = .purgeFails ∧ exchange s = ((nextReply s).2, .purgeFailed)) ∨
    ((nextReply s).1 = .writeFails ∧ exchange s = (writeOut (nextReply s).2, .writeFailed)) ∨
    ((nextReply s).1 = .readFails ∧ exchange s = (writeOut (nextReply s).2, .readFailed)) := by
  unfold exchange
  rcases nextReply s with ⟨r, t⟩
  cases r with
  | bytes raw => exact .inl ⟨raw, rfl, rfl⟩
  | purgeFails => exact .inr (.inl ⟨rfl, rfl⟩)
  | writeFails => exact .inr (.inr (.inl ⟨rfl, rfl⟩))
  | readFails => exact .inr (.inr (.inr ⟨rfl, rfl⟩))

/-- The next reply changes only the list of replies or the counter of free values. -/
theorem nextReply_cases (s : State) :
    (∃ r rest, s.replies = r :: rest ∧ nextReply s = (r, { s with replies := rest })) ∨
    (s.replies = [] ∧
      nextReply s = (Config.unlistedReply s.draws, { s with draws := s.draws + 1 })) := by
  unfold nextReply
  cases h : s.replies with
  | nil => exact .inr ⟨rfl, rfl⟩
  | cons r rest => exact .inl ⟨r, rest, rfl, rfl⟩

/-- The next reply is the one the state meets. -/
theorem nextReply_of_meets {s : State} {r : Reply} {rest : List Reply} {n : Nat}
    (h : Meets s r rest n) : nextReply s = (r, { s with replies := rest, draws := n }) := by
  rcases h with ⟨h, rfl⟩ | ⟨h, rfl, rfl, rfl⟩
  · unfold nextReply; rw [h]
  · unfold nextReply; rw [h]

/-- Every state meets a reply. -/
theorem meets_exists (s : State) : ∃ r rest n, Meets s r rest n := by
  cases h : s.replies with
  | nil => exact ⟨_, _, _, .inr ⟨h, rfl, rfl, rfl⟩⟩
  | cons r rest => exact ⟨_, _, _, .inl ⟨h, rfl⟩⟩

/-- A request with at most 250 data bytes: ENCODE succeeds, so the outcome is the exchange's or
DECODE's. -/
theorem transact_eq {d : List Byte} (h : d.length ≤ 250) (c m : Byte) (s : State) :
    transact c m d s =
      if (exchange (issueEncode c m d s)).2 = kindOk then
        (issueDecode c (exchange (issueEncode c m d s)).1,
          statusKind (issueDecode c (exchange (issueEncode c m d s)).1))
      else exchange (issueEncode c m d s) := by
  have hs : (issueEncode c m d s).status = statusOk := by
    simp only [issueEncode]; rw [runEncode_fits h]
  simp only [transact, hs, if_true]

/-- A request does the same whether the reply it meets is listed or free: a state that meets `r` acts as
the one that lists it. -/
theorem transact_of_meets {d : List Byte} (h : d.length ≤ 250) (c m : Byte) {s : State} {r : Reply}
    {rest : List Reply} {n : Nat} (hm : Meets s r rest n) :
    transact c m d s = transact c m d { s with replies := r :: rest, draws := n } := by
  have hx : exchange (issueEncode c m d s)
      = exchange (issueEncode c m d { s with replies := r :: rest, draws := n }) := by
    have he : nextReply (issueEncode c m d s)
        = nextReply (issueEncode c m d { s with replies := r :: rest, draws := n }) := by
      have h1 : Meets (issueEncode c m d s) r rest n := by
        simp only [issueEncode]; rw [runEncode_fits h]; exact hm
      have h2 : Meets (issueEncode c m d { s with replies := r :: rest, draws := n }) r rest n := by
        simp only [issueEncode]; rw [runEncode_fits h]; exact .inl ⟨rfl, rfl⟩
      rw [nextReply_of_meets h1, nextReply_of_meets h2]
      simp only [issueEncode]; rw [runEncode_fits h, runEncode_fits h]
    simp only [exchange, he]
  rw [transact_eq h, transact_eq h, hx]

/-- The state after a request whose reply bytes the state lists. -/
def transacted (c m : Byte) (d raw : List Byte) (rest : List Reply) (s : State) : State :=
  { runDecode c (raw.take 255) (runEncode c m d s) with
      ports := driveDecode c (driveReceived (raw.take 255) (driveEncode c m d s.ports))
      replies := rest
      written := s.written ++ [frameBytes c m d] }

@[simp] theorem transacted_status (c m : Byte) (d raw : List Byte) (rest : List Reply) (s : State) :
    (transacted c m d raw rest s).status = decodeStatus c (raw.take 255) := by
  simp [transacted]

theorem transacted_done (c m : Byte) (d raw : List Byte) (rest : List Reply) (s : State) :
    (transacted c m d raw rest s).done = true := by
  by_cases hk : decodeStatus c (raw.take 255) = statusOk
  · simp only [transacted]; rw [runDecode_ok hk]
  · simp only [transacted]; rw [runDecode_fails hk]

/-- A request and its listed reply bytes. -/
theorem transact_bytes {d : List Byte} (h : d.length ≤ 250) (c m : Byte) {s : State}
    {raw : List Byte} {rest : List Reply} (hr : s.replies = .bytes raw :: rest) :
    transact c m d s =
      (transacted c m d raw rest s, .status (transacted c m d raw rest s).status) := by
  have hf := frameOut_runEncode h c m { s with ports := driveEncode c m d s.ports }
  rw [transact_eq h]
  have hi : issueEncode c m d s
      = { runEncode c m d s with ports := driveEncode c m d s.ports } := by
    simp only [issueEncode]; rw [runEncode_fits h, runEncode_fits h]
  have hrep : (issueEncode c m d s).replies = .bytes raw :: rest := by
    rw [hi, runEncode_fits h]; exact hr
  have hx : exchange (issueEncode c m d s)
      = ({ issueEncode c m d s with
            replies := rest, written := s.written ++ [frameBytes c m d]
            ports := driveReceived (raw.take 255) (driveEncode c m d s.ports) }, kindOk) := by
    rw [← hf]
    unfold exchange nextReply
    rw [hrep]
    simp only [issueEncode]
    rw [runEncode_fits h]
    rfl
  rw [hx]
  simp only [if_true]
  have hp : portRx (driveReceived (raw.take 255) (driveEncode c m d s.ports)) = raw.take 255 :=
    portRx_driveReceived _ (by simp) _
  have hd : issueDecode c { issueEncode c m d s with
            replies := rest, written := s.written ++ [frameBytes c m d]
            ports := driveReceived (raw.take 255) (driveEncode c m d s.ports) }
      = transacted c m d raw rest s := by
    simp only [issueDecode, hp, hi, transacted]
    by_cases hk : decodeStatus c (raw.take 255) = statusOk
    · rw [runDecode_ok hk, runDecode_ok hk]
    · rw [runDecode_fails hk, runDecode_fails hk]
  rw [hd]; rfl

/-- The error kind of a transport failure. -/
def failureKind : Reply → ErrorKind
  | .bytes _ => kindOk
  | .purgeFails => .purgeFailed
  | .writeFails => .writeFailed
  | .readFails => .readFailed

/-- A request that the transport fails: ENCODE has run, DECODE has not. -/
theorem transact_failure {d : List Byte} (h : d.length ≤ 250) (c m : Byte) {s : State}
    {f : Reply} {rest : List Reply} (hr : s.replies = f :: rest) (hf : ∀ raw, f ≠ .bytes raw) :
    transact c m d s =
      ({ runEncode c m d s with
          ports := driveEncode c m d s.ports
          replies := rest
          written := if f = .purgeFails then s.written else s.written ++ [frameBytes c m d] },
       failureKind f) := by
  have ho := frameOut_runEncode h c m { s with ports := driveEncode c m d s.ports }
  rw [transact_eq h]
  have hi : issueEncode c m d s
      = { runEncode c m d s with ports := driveEncode c m d s.ports } := by
    simp only [issueEncode]; rw [runEncode_fits h, runEncode_fits h]
  have hrep : (issueEncode c m d s).replies = f :: rest := by
    rw [hi, runEncode_fits h]; exact hr
  have hx : exchange (issueEncode c m d s)
      = ({ issueEncode c m d s with
            replies := rest
            written := if f = .purgeFails then s.written else s.written ++ [frameBytes c m d] },
         failureKind f) := by
    rw [← ho]
    unfold exchange nextReply
    rw [hrep]
    simp only [issueEncode]
    rw [runEncode_fits h]
    cases f with
    | bytes raw => exact absurd rfl (hf raw)
    | purgeFails => rfl
    | writeFails => rfl
    | readFails => rfl
  rw [hx]
  have hk : failureKind f ≠ kindOk := by
    cases f with
    | bytes raw => exact absurd rfl (hf raw)
    | purgeFails => decide
    | writeFails => decide
    | readFails => decide
  simp only [hk, if_false, hi]

/-! ### UNPACK over a list -/

/-- The active-motor list: one entry a byte, in payload order. -/
theorem unpackAll_list (l : List Byte) (s : State) :
    (unpackAll l s).1
      = l.map (fun b => { row := coordRow b, col := coordCol b, valid := coordValidOf b }) := by
  induction l generalizing s with
  | nil => rfl
  | cons b bs ih => simp only [unpackAll, List.map_cons, ih]; rfl

/-- UNPACK over a list changes only UNPACK's registers, STATUS, DONE and the ports. -/
theorem unpackAll_state (l : List Byte) (s : State) :
    (unpackAll l s).2 = { s with
      rowOut := (unpackAll l s).2.rowOut, colOut := (unpackAll l s).2.colOut
      coordValid := (unpackAll l s).2.coordValid, status := (unpackAll l s).2.status
      done := (unpackAll l s).2.done, ports := (unpackAll l s).2.ports } := by
  induction l generalizing s with
  | nil => rfl
  | cons b bs ih => simp only [unpackAll]; rw [ih]; rfl

end Sys2Proof.Machine
end

