-- ==== Sys2Proof/Laws/Messages.lean ====
section
/-! SUPPORT. What a pseudo-instruction's shared parts do, once. -/

namespace Sys2Proof.Machine

/-- A plain message with listed reply bytes. -/
theorem plainMessage_bytes {d : List Byte} (h : d.length ≤ 250) (c m : Byte) {s : State}
    {raw : List Byte} {rest : List Reply} (hr : s.replies = .bytes raw :: rest) :
    plainMessage c m d s = { transacted c m d raw rest s with
      apiStatus := .status (transacted c m d raw rest s).status } := by
  rw [plainMessage, transact_bytes h c m hr]; rfl

/-- A plain message that the transport fails. -/
theorem plainMessage_failure {d : List Byte} (h : d.length ≤ 250) (c m : Byte) {s : State}
    {f : Reply} {rest : List Reply} (hr : s.replies = f :: rest) (hf : ∀ raw, f ≠ .bytes raw) :
    plainMessage c m d s = { runEncode c m d s with
      ports := driveEncode c m d s.ports
      replies := rest
      written := if f = .purgeFails then s.written else s.written ++ [frameBytes c m d]
      apiStatus := failureKind f } := by
  rw [plainMessage, transact_failure h c m hr hf]; rfl

/-- A plain message does the same whether the reply it meets is listed or free. -/
theorem plainMessage_of_meets {d : List Byte} (h : d.length ≤ 250) (c m : Byte) {s : State}
    {r : Reply} {rest : List Reply} {n : Nat} (hm : Meets s r rest n) :
    plainMessage c m d s = plainMessage c m d { s with replies := r :: rest, draws := n } := by
  rw [plainMessage, plainMessage, transact_of_meets h c m hm]

/-- The frame of a request is handed over unless the purge before it fails. -/
theorem transact_written_of_meets {d : List Byte} (h : d.length ≤ 250) (c m : Byte) {s : State}
    {r : Reply} {rest : List Reply} {n : Nat} (hm : Meets s r rest n) :
    (transact c m d s).1.written
      = if r = .purgeFails then s.written else s.written ++ [frameBytes c m d] := by
  rw [transact_of_meets h c m hm]
  by_cases hb : ∃ raw, r = .bytes raw
  · obtain ⟨raw, rfl⟩ := hb
    rw [transact_bytes h c m rfl]
    rfl
  · rw [transact_failure h c m rfl (fun raw hr => hb ⟨raw, hr⟩)]

/-- PACK issued inside the grid. -/
theorem issuePack_inRange {row col : Byte} (h : coordInRange row col = true) (s : State) :
    issuePack row col s = { s with ports := drivePack row col s.ports, coord := coordByte row col
                                   status := statusOk, done := true } := by
  rw [issuePack, runPack_inRange h]

/-- PACK issued outside the grid. -/
theorem issuePack_outOfRange {row col : Byte} (h : coordInRange row col = false) (s : State) :
    issuePack row col s = { s with ports := drivePack row col s.ports, coord := 0
                                   status := statusInvalidMotorCoordinates, done := true } := by
  rw [issuePack, runPack_outOfRange h]

/-- MOTOR_RUN inside the grid: the request with the packed byte, after PACK. -/
theorem execMotorRun_inGrid {row col : Byte} (h : coordInRange row col = true) (s : State) :
    execMotorRun row col s
      = .next (plainMessage Config.idMotor 0x13#8 [coordByte row col] (issuePack row col s)) := by
  simp only [execMotorRun, issuePack_inRange h, if_true]

/-- MOTOR_RUN outside the grid: PACK's failure and nothing else (R200). -/
theorem execMotorRun_outside {row col : Byte} (h : coordInRange row col = false) (s : State) :
    execMotorRun row col s = .next { issuePack row col s with
      apiStatus := .status statusInvalidMotorCoordinates } := by
  have hne : statusInvalidMotorCoordinates ≠ statusOk := by decide
  simp only [execMotorRun, issuePack_outOfRange h, hne, if_false, endCall, statusKind]

/-- MOTOR_PAIR_RUN with both coordinates in the grid. -/
theorem execMotorPairRun_inGrid {row c1 c2 : Byte} (h1 : coordInRange row c1 = true)
    (h2 : coordInRange row c2 = true) (s : State) :
    execMotorPairRun row c1 c2 s
      = .next (plainMessage Config.idMotor 0x13#8 [coordByte row c1, coordByte row c2]
          (issuePack row c2 (issuePack row c1 s))) := by
  simp only [execMotorPairRun, issuePack_inRange h1, issuePack_inRange h2, if_true]

/-- MOTOR_PAIR_RUN whose first coordinate is outside the grid. -/
theorem execMotorPairRun_firstOutside {row c1 : Byte} (h : coordInRange row c1 = false)
    (c2 : Byte) (s : State) :
    execMotorPairRun row c1 c2 s = .next { issuePack row c1 s with
      apiStatus := .status statusInvalidMotorCoordinates } := by
  have hne : statusInvalidMotorCoordinates ≠ statusOk := by decide
  simp only [execMotorPairRun, issuePack_outOfRange h, hne, if_false, endCall, statusKind]

/-- MOTOR_PAIR_RUN whose second coordinate alone is outside the grid. -/
theorem execMotorPairRun_secondOutside {row c1 c2 : Byte} (h1 : coordInRange row c1 = true)
    (h2 : coordInRange row c2 = false) (s : State) :
    execMotorPairRun row c1 c2 s = .next { issuePack row c2 (issuePack row c1 s) with
      apiStatus := .status statusInvalidMotorCoordinates } := by
  have hne : statusInvalidMotorCoordinates ≠ statusOk := by decide
  simp only [execMotorPairRun, issuePack_inRange h1, issuePack_outOfRange h2, hne, if_false, if_true,
    endCall, statusKind]

/-- The response data after a request whose reply DECODE accepts. -/
theorem respOut_transacted {c : Byte} {raw : List Byte}
    (hk : decodeStatus c (raw.take 255) = statusOk) (m : Byte) (d : List Byte) (rest : List Reply)
    (s : State) : respOut (transacted c m d raw rest s) = decodePayload c (raw.take 255) := by
  have := respOut_runDecode hk (by simp) (runEncode c m d s)
  exact this

/-- A version message whose reply DECODE accepts. -/
theorem versionMessage_ok {c : Byte} {s : State} {raw : List Byte} {rest : List Reply}
    (hr : s.replies = .bytes raw :: rest) (hk : decodeStatus c (raw.take 255) = statusOk) :
    versionMessage c s = { transacted c 0x02#8 [] raw rest s with
      apiStatus := kindOk, version := versionString (decodePayload c (raw.take 255)) } := by
  rw [versionMessage, transact_bytes (by simp) c _ hr]
  have : ErrorKind.status (transacted c 0x02#8 [] raw rest s).status = kindOk := by
    rw [transacted_status, hk]; rfl
  simp only [versionOf, this, if_true, respOut_transacted hk]
  rfl

/-- A version message whose reply DECODE rejects. -/
theorem versionMessage_fails {c : Byte} {s : State} {raw : List Byte} {rest : List Reply}
    (hr : s.replies = .bytes raw :: rest) (hk : decodeStatus c (raw.take 255) ≠ statusOk) :
    versionMessage c s = { transacted c 0x02#8 [] raw rest s with
      apiStatus := .status (transacted c 0x02#8 [] raw rest s).status, version := [] } := by
  rw [versionMessage, transact_bytes (by simp) c _ hr]
  have : ErrorKind.status (transacted c 0x02#8 [] raw rest s).status ≠ kindOk := by
    intro he; exact hk (by simpa [kindOk] using he)
  simp only [versionOf, this, if_false]
  rfl

/-! ### How the messages with outputs end -/

theorem versionOf_ok {x : State × ErrorKind} (h : x.2 = kindOk) :
    versionOf x = { endCall x with version := versionString (respOut x.1) } := if_pos h

theorem versionOf_fails {x : State × ErrorKind} (h : x.2 ≠ kindOk) :
    versionOf x = { endCall x with version := [] } := if_neg h

theorem motorStatusOf_fails {x : State × ErrorKind} (h : x.2 ≠ kindOk) :
    motorStatusOf x = { x.1 with apiStatus := x.2, currentMA := 0, active := [] } := if_neg h

/-- Every way MOTOR_STATUS can end. -/
theorem motorStatusOf_cases (x : State × ErrorKind) :
    (x.2 ≠ kindOk ∧ motorStatusOf x = { x.1 with apiStatus := x.2, currentMA := 0, active := [] }) ∨
    (x.2 = kindOk ∧ (respOut x.1).length < 2 ∧ motorStatusOf x
      = { x.1 with apiStatus := .status statusInvalidLength, currentMA := 0, active := [] }) ∨
    (x.2 = kindOk ∧ 2 ≤ (respOut x.1).length ∧ (respOut x.1).getD 0 0 ≠ 0x10#8 ∧ motorStatusOf x
      = { x.1 with apiStatus := .status statusInvalidSource, currentMA := 0, active := [] }) ∨
    (x.2 = kindOk ∧ 2 ≤ (respOut x.1).length ∧ (respOut x.1).getD 0 0 = 0x10#8 ∧ motorStatusOf x
      = { (unpackAll ((respOut x.1).drop 2) x.1).2 with
          apiStatus := kindOk
          currentMA := BitVec.ofNat 16 (currentOf ((respOut x.1).getD 1 0))
          active := (unpackAll ((respOut x.1).drop 2) x.1).1 }) := by
  by_cases h : x.2 = kindOk
  · have e : motorStatusOf x = motorStatusResult x.1 := if_pos h
    rw [e]
    unfold motorStatusResult
    by_cases hl : (respOut x.1).length < 2
    · exact .inr (.inl ⟨h, hl, if_pos hl⟩)
    · by_cases he : (respOut x.1).getD 0 0 = 0x10#8
      · refine .inr (.inr (.inr ⟨h, by omega, he, ?_⟩))
        dsimp only
        rw [if_neg hl, if_neg (not_not_intro he)]
        rfl
      · refine .inr (.inr (.inl ⟨h, by omega, he, ?_⟩))
        dsimp only
        rw [if_neg hl, if_pos he]
        rfl
  · exact .inl ⟨h, motorStatusOf_fails h⟩

/-- Every way MOTOR_OPTO_LINE_STATUS can end. -/
theorem optoLineOf_cases (x : State × ErrorKind) :
    (x.2 ≠ kindOk ∧ optoLineOf x = { x.1 with apiStatus := x.2, optoLine := 0 }) ∨
    (x.2 = kindOk ∧ (respOut x.1).length < 5 ∧
      optoLineOf x = { x.1 with apiStatus := .status statusInvalidLength, optoLine := 0 }) ∨
    (x.2 = kindOk ∧ 5 ≤ (respOut x.1).length ∧
      optoLineOf x = { x.1 with apiStatus := kindOk, optoLine := optoWord (respOut x.1) }) := by
  by_cases h : x.2 = kindOk
  · have e : optoLineOf x = optoLineResult x.1 := if_pos h
    rw [e]
    unfold optoLineResult
    by_cases hl : (respOut x.1).length < 5
    · exact .inr (.inl ⟨h, hl, by rw [if_pos hl]; rfl⟩)
    · exact .inr (.inr ⟨h, by omega, by rw [if_neg hl]; rfl⟩)
  · exact .inl ⟨h, if_neg h⟩

/-- UNPACK writes its own registers, STATUS, DONE and its port, and nothing else, however often. -/
theorem unpackAll_frame (l : List Byte) (s : State) :
    (unpackAll l s).2 = { s with rowOut := (unpackAll l s).2.rowOut
                                 colOut := (unpackAll l s).2.colOut
                                 coordValid := (unpackAll l s).2.coordValid
                                 status := (unpackAll l s).2.status
                                 done := (unpackAll l s).2.done
                                 ports := (unpackAll l s).2.ports } := by
  induction l generalizing s with
  | nil => rfl
  | cons b bs ih => exact ih (issueUnpack b s)

/-- UNPACK ends with OK and DONE. -/
theorem unpackAll_status (l : List Byte) (s : State) (h : s.status = statusOk) (hd : s.done = true) :
    (unpackAll l s).2.status = statusOk ∧ (unpackAll l s).2.done = true := by
  induction l generalizing s with
  | nil => exact ⟨h, hd⟩
  | cons b bs ih => exact ih (issueUnpack b s) rfl rfl

/-- Whatever the reply, a request ends with DONE raised, a STATUS of R230 that is not NEGATIVE_ACK,
and an outcome that is not NEGATIVE_ACK; an outcome that is a STATUS value is the STATUS left. -/
theorem transact_ends {d : List Byte} (h : d.length ≤ 250) (c m : Byte) (s : State) :
    (transact c m d s).1.done = true ∧ (transact c m d s).1.status ≠ 2#4 ∧
    (transact c m d s).1.status.toNat ≤ 6 ∧ (transact c m d s).2 ≠ .status 2#4 ∧
    (∀ k, (transact c m d s).2 = .status k → k = (transact c m d s).1.status) := by
  have hds : ∀ c r, decodeStatus c r ≠ 2#4 ∧ (decodeStatus c r).toNat ≤ 6 := by
    intro c r
    rcases decodeStatus_codes c r with h | h | h | h | h <;> rw [h] <;> decide
  have hdd : ∀ c r s, (runDecode c r s).done = true := by
    intro c r s
    by_cases hk : decodeStatus c r = statusOk
    · rw [runDecode_ok hk]
    · rw [runDecode_fails hk]
  have hie : (issueEncode c m d s).done = true ∧ (issueEncode c m d s).status = statusOk := by
    simp only [issueEncode]; rw [runEncode_fits h]; exact ⟨rfl, rfl⟩
  have hn : (nextReply (issueEncode c m d s)).2.done = true ∧
      (nextReply (issueEncode c m d s)).2.status = statusOk := by
    rcases nextReply_cases (issueEncode c m d s) with ⟨r, rest, h1, h2⟩ | ⟨h1, h2⟩ <;> rw [h2] <;>
      exact hie
  have hok : statusOk ≠ 2#4 ∧ statusOk.toNat ≤ 6 := by decide
  rw [transact_eq h]
  rcases exchange_cases (issueEncode c m d s) with ⟨raw, h1, h2⟩ | ⟨h1, h2⟩ | ⟨h1, h2⟩ | ⟨h1, h2⟩
  · rw [h2]
    simp only [if_true, issueDecode, statusKind, runDecode_status, hdd]
    refine ⟨trivial, (hds _ _).1, (hds _ _).2, ?_, ?_⟩
    · intro h; injection h with h; exact (hds _ _).1 h
    · intro k h; injection h with h; exact h.symm
  all_goals
    rw [h2]
    simp [kindOk, hn.1, hn.2, hok.1, hok.2]

/-- Whatever the reply, a request takes at most one reply and hands at most one frame to the
transport (R208). -/
theorem transact_io {d : List Byte} (h : d.length ≤ 250) (c m : Byte) (s : State) :
    ((transact c m d s).1.written = s.written ∨
      (transact c m d s).1.written = s.written ++ [frameBytes c m d]) ∧
    ((transact c m d s).1.replies = s.replies.tail) := by
  have ho := frameOut_runEncode h c m { s with ports := driveEncode c m d s.ports }
  have hrd : ∀ ctx raw t, (runDecode ctx raw t).written = t.written ∧
      (runDecode ctx raw t).replies = t.replies := by
    intro ctx raw t
    by_cases hk : decodeStatus ctx raw = statusOk
    · rw [runDecode_ok hk]; exact ⟨rfl, rfl⟩
    · rw [runDecode_fails hk]; exact ⟨rfl, rfl⟩
  have hie : (issueEncode c m d s).written = s.written ∧
      (issueEncode c m d s).replies = s.replies := by
    simp only [issueEncode]; rw [runEncode_fits h]; exact ⟨rfl, rfl⟩
  have hn : (nextReply (issueEncode c m d s)).2.written = s.written ∧
      (nextReply (issueEncode c m d s)).2.replies = s.replies.tail ∧
      frameOut (nextReply (issueEncode c m d s)).2 = frameBytes c m d := by
    rcases nextReply_cases (issueEncode c m d s) with ⟨r, rest, h1, h2⟩ | ⟨h1, h2⟩
    · rw [h2]; rw [hie.2] at h1; simp only [h1, List.tail_cons]
      exact ⟨hie.1, trivial, ho⟩
    · rw [h2]; rw [hie.2] at h1; simp only [h1, List.tail_nil]
      exact ⟨hie.1, hie.2.trans h1, ho⟩
  rw [transact_eq h]
  rcases exchange_cases (issueEncode c m d s) with
    ⟨raw, h1, h2⟩ | ⟨h1, h2⟩ | ⟨h1, h2⟩ | ⟨h1, h2⟩
  · rw [h2]
    simp only [if_true, issueDecode]
    rw [(hrd _ _ _).1, (hrd _ _ _).2]
    simp [hn.1, hn.2.1, hn.2.2]
  all_goals
    rw [h2]
    simp [kindOk, hn.1, hn.2.1, hn.2.2]

end Sys2Proof.Machine
end

