-- ==== Sys2Proof/Laws/PerInstr.lean ====
section
/-! SUPPORT. Statements over all instructions, one lemma per constructor. The family
EncodingCanonical: the input arrays of an encoded instruction are in canonical form. -/

namespace Sys2Proof.Laws
open Sys2Proof.Machine

/-- The encoder's input arrays are in canonical form. -/
def EncodingCanonical.Statement (i : Instr) : Prop :=
  ∀ p, Sys2Proof.encode i = .operation p →
    Memory.wf p.dataIn = true ∧ Memory.wf p.rxIn = true

theorem EncodingCanonical.encode (ctrlId cmd : Byte) (data : List Byte) :
    EncodingCanonical.Statement (.encode ctrlId cmd data) := by
  rintro p ⟨⟩; exact ⟨Memory.wf_writeBytes rfl _ _, rfl⟩

theorem EncodingCanonical.decode (ctx : Byte) (raw : List Byte) :
    EncodingCanonical.Statement (.decode ctx raw) := by
  rintro p ⟨⟩; exact ⟨rfl, Memory.wf_writeBytes rfl _ _⟩

theorem EncodingCanonical.xorfold (bytes : List Byte) :
    EncodingCanonical.Statement (.xorfold bytes) := by
  rintro p ⟨⟩; exact ⟨rfl, Memory.wf_writeBytes rfl _ _⟩

theorem EncodingCanonical.pack (row col : Byte) :
    EncodingCanonical.Statement (.pack row col) := by rintro p ⟨⟩; exact ⟨rfl, rfl⟩

theorem EncodingCanonical.unpack (b : Byte) : EncodingCanonical.Statement (.unpack b) := by
  rintro p ⟨⟩; exact ⟨rfl, rfl⟩

theorem EncodingCanonical.reserved101 : EncodingCanonical.Statement .reserved101 := by
  rintro p ⟨⟩; exact ⟨rfl, rfl⟩

theorem EncodingCanonical.reserved110 : EncodingCanonical.Statement .reserved110 := by
  rintro p ⟨⟩; exact ⟨rfl, rfl⟩

theorem EncodingCanonical.reserved111 : EncodingCanonical.Statement .reserved111 := by
  rintro p ⟨⟩; exact ⟨rfl, rfl⟩

theorem EncodingCanonical.relayPing (id : BitVec 1) :
    EncodingCanonical.Statement (.relayPing id) := by rintro p ⟨⟩

theorem EncodingCanonical.relayVersion (id : BitVec 1) :
    EncodingCanonical.Statement (.relayVersion id) := by rintro p ⟨⟩

theorem EncodingCanonical.relayReset (id : BitVec 1) :
    EncodingCanonical.Statement (.relayReset id) := by rintro p ⟨⟩

theorem EncodingCanonical.relaySet (id : BitVec 1) (on : Bool) :
    EncodingCanonical.Statement (.relaySet id on) := by rintro p ⟨⟩

theorem EncodingCanonical.motorPing : EncodingCanonical.Statement .motorPing := by rintro p ⟨⟩

theorem EncodingCanonical.motorVersion : EncodingCanonical.Statement .motorVersion := by
  rintro p ⟨⟩

theorem EncodingCanonical.motorReset : EncodingCanonical.Statement .motorReset := by rintro p ⟨⟩

theorem EncodingCanonical.motorStatus : EncodingCanonical.Statement .motorStatus := by
  rintro p ⟨⟩

theorem EncodingCanonical.motorStopAll : EncodingCanonical.Statement .motorStopAll := by
  rintro p ⟨⟩

theorem EncodingCanonical.motorRun (row col : Byte) :
    EncodingCanonical.Statement (.motorRun row col) := by rintro p ⟨⟩

theorem EncodingCanonical.motorPairRun (row c1 c2 : Byte) :
    EncodingCanonical.Statement (.motorPairRun row c1 c2) := by rintro p ⟨⟩

theorem EncodingCanonical.motorOptoLineStatus :
    EncodingCanonical.Statement .motorOptoLineStatus := by rintro p ⟨⟩

theorem EncodingCanonical.globalReset : EncodingCanonical.Statement .globalReset := by
  rintro p ⟨⟩

end Sys2Proof.Laws
end

