-- ==== Sys2Proof/Laws/Step.lean ====
section
/-! SUPPORT. Everything one step, and one act of the host, can do, once. -/

namespace Sys2Proof.Machine

/-- The reset line wins over everything. -/
theorem step_reset {s : State} (h : s.rst = true) : step s = .next (assertReset s) := by
  simp [step, h]

/-- An operation in progress completes. -/
theorem step_inFlight {s : State} {i : Instr} (h : s.rst = false) (hi : s.inFlight = some i)
    (hq : requested s = false) : step s = exec i (accept s) := by
  simp [step, h, hi, hq]

/-- A request while an operation is in progress has no step. -/
theorem step_inFlight_overlap {s : State} {i : Instr} (h : s.rst = false)
    (hi : s.inFlight = some i) (hq : requested s = true) :
    step s = .fault .overlappingRequest := by simp [step, h, hi, hq]

/-- Nothing to do. -/
theorem step_idle {s : State} (h : s.rst = false) (hi : s.inFlight = none)
    (hf : fetch s = .idle) : step s = .next s := by simp [step, h, hi, hf]

/-- A request the decoder reads. -/
theorem step_word {s : State} {w : Encoded} {i : Instr} (h : s.rst = false)
    (hi : s.inFlight = none) (hf : fetch s = .word w) (hd : decode w = .ok i) :
    step s = exec i (accept s) := by simp [step, h, hi, hf, hd]

/-- A request the decoder rejects. -/
theorem step_rejected {s : State} {w : Encoded} {e : DecodeError} (h : s.rst = false)
    (hi : s.inFlight = none) (hf : fetch s = .word w) (hd : decode w = .error e) :
    step s = .refused (.undecodable e) := by simp [step, h, hi, hf, hd]

/-- If a step answers a next state, it was a reset, nothing at all, or one instruction run on the
state that has taken the request: the one in progress, or the one the decoder reads. -/
theorem step_next_cases {s t : State} (h : step s = .next t) :
    (s.rst = true ∧ t = assertReset s) ∨
    (s.rst = false ∧ s.inFlight = none ∧ fetch s = .idle ∧ t = s) ∨
    (s.rst = false ∧ ∃ i, exec i (accept s) = .next t ∧
      (s.inFlight = some i ∨ s.inFlight = none ∧ ∃ w, fetch s = .word w ∧ decode w = .ok i)) := by
  cases hr : s.rst with
  | true => rw [step_reset hr] at h; injection h with h; exact .inl ⟨rfl, h.symm⟩
  | false =>
    right
    cases hi : s.inFlight with
    | some i =>
      cases hq : requested s with
      | true => rw [step_inFlight_overlap hr hi hq] at h; cases h
      | false => rw [step_inFlight hr hi hq] at h; exact .inr ⟨rfl, i, h, .inl rfl⟩
    | none =>
      cases hf : fetch s with
      | idle =>
        rw [step_idle hr hi hf] at h; injection h with h
        exact .inl ⟨rfl, rfl, rfl, h.symm⟩
      | overlap => simp [step, hr, hi, hf] at h
      | word w =>
        cases hd : decode w with
        | error e => rw [step_rejected hr hi hf hd] at h; cases h
        | ok i => rw [step_word hr hi hf hd] at h; exact .inr ⟨rfl, i, h, .inr ⟨rfl, w, rfl, hd⟩⟩

/-! ### One request at a time -/

/-- The host may issue exactly when nothing is in progress and nothing waits. -/
theorem hostMayIssue_iff (s : State) :
    hostMayIssue s = true ↔ s.inFlight = none ∧ s.req = false ∧ s.call = none := by
  simp [hostMayIssue, requested]

/-- Overlap, as a proposition. -/
theorem overlapping_iff (s : State) :
    overlapping s = true ↔
      s.inFlight ≠ none ∧ (s.req = true ∨ s.call ≠ none) ∨ s.req = true ∧ s.call ≠ none := by
  simp [overlapping, requested, Option.isSome_iff_ne_none]

/-- No overlap is one request at a time. -/
theorem oneAtATime_iff (s : State) : OneAtATime s ↔ overlapping s = false := by
  rw [← Bool.not_eq_true, overlapping_iff]
  constructor
  · rintro ⟨h1, h2⟩ (⟨hi, hq | hc⟩ | ⟨hq, hc⟩)
    · simp [(h1 hi).1] at hq
    · exact hc (h1 hi).2
    · exact hc (h2 hq)
  · intro h
    refine ⟨fun hi => ⟨?_, ?_⟩, fun hq => ?_⟩
    · exact Bool.eq_false_iff.2 fun hq => h (.inl ⟨hi, .inl hq⟩)
    · exact Classical.not_not.1 fun hc => h (.inl ⟨hi, .inr hc⟩)
    · exact Classical.not_not.1 fun hc => h (.inr ⟨hq, hc⟩)

/-- An overlap that no reset takes away has no step. -/
theorem step_overlapping {s : State} (h : s.rst = false) (ho : overlapping s = true) :
    step s = .fault .overlappingRequest := by
  cases hi : s.inFlight with
  | some i =>
    refine step_inFlight_overlap h hi ?_
    cases hq : s.req <;> simp_all [overlapping, requested]
  | none =>
    obtain ⟨hq, hc⟩ : s.req = true ∧ s.call.isSome = true := by simpa [overlapping, hi] using ho
    obtain ⟨c, hc⟩ := Option.isSome_iff_exists.1 hc
    simp [step, h, hi, fetch, hq, hc]

/-- An operation is requested exactly where the host may issue. -/
theorem requestOperation_next {p : Ports} {s t : State} (h : requestOperation p s = .next t) :
    hostMayIssue s = true ∧ t = { s with ports := p, req := true } := by
  unfold requestOperation at h
  split at h
  · exact ⟨‹_›, by injection h with h; exact h.symm⟩
  · cases h

/-- A message is called exactly where the host may issue. -/
theorem callMessage_next {c : MsgCall} {s t : State} (h : callMessage c s = .next t) :
    hostMayIssue s = true ∧ t = { s with call := some c } := by
  unfold callMessage at h
  split at h
  · exact ⟨‹_›, by injection h with h; exact h.symm⟩
  · cases h

/-- Everything sampling can do: a reset, the operands of a request that stands alone, or nothing. -/
theorem sampleRequest_next {s t : State} (h : sampleRequest s = .next t) :
    (s.rst = true ∧ t = assertReset s) ∨
    (s.rst = false ∧ overlapping s = false ∧ s.req = true ∧ t = sampled s) ∨
    (s.rst = false ∧ overlapping s = false ∧ s.req = false ∧ t = s) := by
  cases hr : s.rst <;> cases ho : overlapping s <;> cases hq : s.req <;>
    simp [sampleRequest, hr, ho, hq] at h <;> simp [h]

end Sys2Proof.Machine
end

