-- ==== Sys2Proof/Tests/Slice0.lean ====
section
/-! SUPPORT. Tests: expected values come from spec/ (the encodings of R70, R84 and R190, the vectors of
95_test_vectors.md), and for every statement with hypotheses a witness that meets them. -/

namespace Sys2Proof.Tests
open Sys2Proof Sys2Proof.Machine

/-- The outcome is a next state, and the state passes. -/
def ran (o : Host.Outcome State Fault Refusal) (p : State → Bool) : Bool :=
  match o with
  | .next t => p t
  | .fault _ => false
  | .refused _ => false

/-- The outcome is this fault. -/
def faulted (o : Host.Outcome State Fault Refusal) (f : Fault) : Bool :=
  match o with
  | .next _ => false
  | .fault g => g = f
  | .refused _ => false

/-- The outcome is this refusal. -/
def refusedAs (o : Host.Outcome State Fault Refusal) (r : Refusal) : Bool :=
  match o with
  | .next _ => false
  | .fault _ => false
  | .refused q => q = r

/-- The next state of an act or a step that has one. -/
def got (o : Host.Outcome State Fault Refusal) : State :=
  match o with
  | .next t => t
  | .fault _ => State.reset
  | .refused _ => State.reset

/-- After reset, with these replies to come. -/
def replying (l : List Reply) : State := { State.reset with replies := l }

/-- After reset, with this instruction asked for. -/
def asked (i : Instr) : State := placeRequest State.reset (encode i)

/-- This many zero bytes. -/
def zeros (n : Nat) : List Byte := List.replicate n 0x00#8

@[simp] theorem length_zeros (n : Nat) : (zeros n).length = n := List.length_replicate

/-- The frame of scenario S5 (95_test_vectors.md section 1). -/
def s5 : List Byte := [0x35#8, 0x30#8, 0x08#8, 0x10#8, 0x80#8, 0x11#8, 0x22#8, 0xAE#8]

/-- The corrected response of scenario S2. -/
def s2 : List Byte :=
  [0x35#8, 0x27#8, 0x0A#8, 0x02#8, 0x76#8, 0x31#8, 0x2E#8, 0x32#8, 0x00#8, 0x41#8]

/-- The smallest valid frame (section 2.3). -/
def ping : List Byte := [0x35#8, 0x26#8, 0x05#8, 0x00#8, 0x16#8]

/-! ### Well-formedness: the check refuses a byte list of 256 bytes and takes one of 255 -/

theorem test_wellFormed_refuses_long_encode :
    wellFormed (.encode 0x26#8 0x00#8 (zeros 256)) = false := by simp [wellFormed]

theorem test_wellFormed_refuses_long_decode :
    wellFormed (.decode 0x26#8 (zeros 256)) = false := by simp [wellFormed]

theorem test_wellFormed_refuses_long_xorfold :
    wellFormed (.xorfold (zeros 256)) = false := by simp [wellFormed]

theorem test_wellFormed_takes_255 :
    wellFormed (.encode 0x26#8 0x00#8 (zeros 255)) = true := by simp [wellFormed]

/-! ### Decoding: words written out from R70, R84 and R190 -/

theorem test_decode_encode :
    decodeOperation { Ports.zero with op := 0b000#3, ctrlId := 0x30#8, cmd := 0x13#8, dlen := 2#8
                                      dataIn := [(0, 0x41#8), (1, 0x4C#8), (2, 0x99#8)] }
      = .encode 0x30#8 0x13#8 [0x41#8, 0x4C#8] := by decide

theorem test_decode_decode :
    decodeOperation { Ports.zero with op := 0b001#3, ctrlId := 0x26#8, rxCount := 3#8
                                      rxIn := [(0, 0x35#8), (2, 0x05#8)] }
      = .decode 0x26#8 [0x35#8, 0x00#8, 0x05#8] := by decide

theorem test_decode_xorfold :
    decodeOperation { Ports.zero with op := 0b010#3, rxCount := 2#8
                                      rxIn := [(0, 0xFF#8), (1, 0x01#8)] }
      = .xorfold [0xFF#8, 0x01#8] := by decide

theorem test_decode_pack :
    decodeOperation { Ports.zero with op := 0b011#3, rowIn := 2#8, colIn := 5#8 } = .pack 2#8 5#8 := by
  decide

theorem test_decode_unpack :
    decodeOperation { Ports.zero with op := 0b100#3, coordIn := 0x22#8 } = .unpack 0x22#8 := by decide

theorem test_decode_reserved :
    decodeTableWord 8 0b00000101 = some .reserved101 ∧
    decodeTableWord 8 0b00000110 = some .reserved110 ∧
    decodeTableWord 8 0b00000111 = some .reserved111 := by decide

theorem test_decode_relay :
    decodeTableWord 24 0b0010_0110_0000_0101_0000_0000 = some (.relayPing 0#1) ∧
    decodeTableWord 24 0b0010_0111_0000_0101_0000_0000 = some (.relayPing 1#1) ∧
    decodeTableWord 24 0b0010_0110_0000_0101_0000_0010 = some (.relayVersion 0#1) ∧
    decodeTableWord 24 0b0010_0111_0000_0101_0000_0101 = some (.relayReset 1#1) ∧
    decodeTableWord 24 0b0010_0110_0000_0110_0001_0001 = some (.relaySet 0#1 false) := by decide

theorem test_decode_relaySet_on :
    decode (.message { key := 0x270611#24, arg0 := 0x01#8, arg1 := 0, arg2 := 0 })
      = .ok (.relaySet 1#1 true) := by rfl

theorem test_decode_motor_plain :
    decodeTableWord 24 0b0011_0000_0000_0101_0000_0000 = some .motorPing ∧
    decodeTableWord 24 0b0011_0000_0000_0101_0000_0010 = some .motorVersion ∧
    decodeTableWord 24 0b0011_0000_0000_0101_0000_0101 = some .motorReset ∧
    decodeTableWord 24 0b0011_0000_0000_0101_0001_0000 = some .motorStatus ∧
    decodeTableWord 24 0b0011_0000_0000_0101_0001_0010 = some .motorStopAll ∧
    decodeTableWord 24 0b0011_0000_0000_0101_0001_0101 = some .motorOptoLineStatus := by decide

theorem test_decode_motorRun :
    decode (.message { key := 0x300613#24, arg0 := 2#8, arg1 := 5#8, arg2 := 0 })
      = .ok (.motorRun 2#8 5#8) := by rfl

theorem test_decode_motorPairRun :
    decode (.message { key := 0x300713#24, arg0 := 3#8, arg1 := 0#8, arg2 := 11#8 })
      = .ok (.motorPairRun 3#8 0#8 11#8) := by rfl

theorem test_decode_globalReset :
    decodeTableWord 24 0b0000_0000_0000_0110_0000_0001 = some .globalReset := by decide

/-- I8: relay 2 would be `0x28`. -/
theorem test_decode_no_relay_two : decodeTableWord 24 0x280500 = none := by decide

/-- No key belongs to two rows of the message table. -/
theorem test_messageTable_rows_disjoint :
    messageTable.Pairwise
      (fun r q => (r.pattern ^^^ q.pattern) &&& (r.mask &&& q.mask) ≠ 0#24) := by decide

/-- S3's request, read back by its key (R84). -/
theorem test_messageOfFrame_motorRun :
    messageOfFrame [0x35#8, 0x30#8, 0x06#8, 0x13#8, 0x36#8, 0x26#8] = some (.motorRun 2#8 5#8) := by
  decide

/-! ### Block operations -/

/-- Section 2.2. -/
theorem test_encode_pair :
    ran (exec (.encode 0x30#8 0x13#8 [0x41#8, 0x4C#8]) State.reset) (fun t =>
      frameOut t == [0x35#8, 0x30#8, 0x07#8, 0x13#8, 0x41#8, 0x4C#8, 0x1C#8] &&
      t.csum == 0x1C#8 && t.status == statusOk && t.done) = true := by decide

/-- Section 2.2, the id that no table has (R123). -/
theorem test_encode_unknown_id :
    ran (exec (.encode 0xFF#8 0xFF#8 []) State.reset) (fun t =>
      frameOut t == [0x35#8, 0xFF#8, 0x05#8, 0xFF#8, 0x30#8]) = true := by decide

/-- Section 2.3, S2 corrected. -/
theorem test_decode_s2 :
    ran (exec (.decode 0x27#8 s2) State.reset) (fun t =>
      respOut t == [0x02#8, 0x76#8, 0x31#8, 0x2E#8, 0x32#8, 0x00#8] && t.status == statusOk) = true := by
  decide

/-- Section 2.3, every check fails: STX wins (R239). -/
theorem test_decode_stx_wins :
    ran (exec (.decode 0x26#8 [0x34#8, 0x27#8, 0x04#8, 0x00#8, 0x00#8]) State.reset) (fun t =>
      t.status == 3#4 && t.respLen == 0#8) = true := by decide

/-- Section 2.1, every bit once. -/
theorem test_xorfold_bits :
    ran (exec (.xorfold [0x01#8, 0x02#8, 0x04#8, 0x08#8, 0x10#8, 0x20#8, 0x40#8, 0x80#8]) State.reset)
      (fun t => t.csum == 0xFF#8 && t.status == statusOk) = true := by decide

/-- Section 2.1, the S7 literal is no valid frame. -/
theorem test_xorfold_s7_literal :
    ran (exec (.xorfold [0x35#8, 0x00#8, 0x06#8, 0x01#8, 0xFF#8, 0xCB#8]) State.reset)
      (fun t => t.csum == 0x06#8) = true := by decide

/-- S3. -/
theorem test_pack_s3 :
    ran (exec (.pack 2#8 5#8) State.reset) (fun t => t.coord == 0x36#8 && t.status == statusOk)
      = true := by decide

/-- Section 2.4: ROW_IN is checked in full. -/
theorem test_pack_full_width :
    ran (exec (.pack 16#8 1#8) State.reset) (fun t => t.coord == 0x00#8 && t.status == 6#4) = true := by
  decide

/-- Section 2.4, the last motor. -/
theorem test_unpack_last :
    ran (exec (.unpack 0x8C#8) State.reset) (fun t =>
      t.rowOut == 7#4 && t.colOut == 11#4 && t.coordValid) = true := by decide

/-- Section 2.4, column 12. -/
theorem test_unpack_column_twelve :
    ran (exec (.unpack 0x1D#8) State.reset) (fun t => !t.coordValid && t.status == statusOk)
      = true := by decide

/-- R71, from a state whose STATUS is not OK. -/
theorem test_reserved_keeps_status :
    ran (exec .reserved110 { State.reset with status := 5#4 }) (fun t => t.status == 5#4 && t.done)
      = true := by decide

/-! ### Messages -/

/-- S1. -/
theorem test_relayPing_s1 :
    ran (exec (.relayPing 0#1) (replying [.bytes ping])) (fun t =>
      t.written == [ping] && t.apiStatus == kindOk && respOut t == [0x00#8]) = true := by decide

/-- S2, the string "v1.2". -/
theorem test_relayVersion_s2 :
    ran (exec (.relayVersion 1#1) (replying [.bytes s2])) (fun t =>
      t.written == [[0x35#8, 0x27#8, 0x05#8, 0x02#8, 0x15#8]] &&
      t.version == [0x76#8, 0x31#8, 0x2E#8, 0x32#8] && t.apiStatus == kindOk) = true := by decide

/-- R193. -/
theorem test_relayReset_frame :
    ran (exec (.relayReset 1#1) (replying [.readFails])) (fun t =>
      t.written == [[0x35#8, 0x27#8, 0x05#8, 0x05#8, 0x12#8]] && t.apiStatus == .readFailed)
      = true := by decide

/-- R194. -/
theorem test_relaySet_frame :
    ran (exec (.relaySet 0#1 true) (replying [.bytes ping])) (fun t =>
      t.written == [[0x35#8, 0x26#8, 0x06#8, 0x11#8, 0x01#8, 0x05#8]] && t.apiStatus == kindOk)
      = true := by decide

/-- R195, answered by the wrong controller. -/
theorem test_motorPing_wrong_source :
    ran (exec .motorPing (replying [.bytes ping])) (fun t =>
      t.written == [[0x35#8, 0x30#8, 0x05#8, 0x00#8, 0x00#8]] && t.apiStatus == .status 4#4)
      = true := by decide

/-- Section 2.5: the string ends at RESP_LEN. -/
theorem test_motorVersion_no_nul :
    ran (exec .motorVersion (replying [.bytes
        [0x35#8, 0x30#8, 0x09#8, 0x02#8, 0x76#8, 0x32#8, 0x2E#8, 0x30#8, 0x54#8]])) (fun t =>
      t.version == [0x76#8, 0x32#8, 0x2E#8, 0x30#8]) = true := by decide

/-- R197, with the purge failing: nothing is written. -/
theorem test_motorReset_purge_fails :
    ran (exec .motorReset (replying [.purgeFails])) (fun t =>
      t.written == [] && t.apiStatus == .purgeFailed && frameOut t ==
        [0x35#8, 0x30#8, 0x05#8, 0x05#8, 0x05#8]) = true := by decide

/-- S5. -/
theorem test_motorStatus_s5 :
    ran (exec .motorStatus (replying [.bytes s5])) (fun t =>
      t.currentMA == 250#16 && t.active == [⟨0#4, 0#4, true⟩, ⟨1#4, 1#4, true⟩] &&
      t.apiStatus == kindOk) = true := by decide

/-- Section 2.5: the echo is not `10`. -/
theorem test_motorStatus_wrong_echo :
    ran (exec .motorStatus (replying [.bytes [0x35#8, 0x30#8, 0x06#8, 0x11#8, 0x80#8, 0x92#8]]))
      (fun t => t.apiStatus == .status 4#4 && t.currentMA == 0#16 && t.active == []) = true := by decide

/-- R199. -/
theorem test_motorStopAll_frame :
    ran (exec .motorStopAll (replying [.writeFails])) (fun t =>
      t.written == [[0x35#8, 0x30#8, 0x05#8, 0x12#8, 0x12#8]] && t.apiStatus == .writeFailed)
      = true := by decide

/-- S3. -/
theorem test_motorRun_s3 :
    ran (exec (.motorRun 2#8 5#8) (replying [.bytes s5])) (fun t =>
      t.written == [[0x35#8, 0x30#8, 0x06#8, 0x13#8, 0x36#8, 0x26#8]]) = true := by decide

/-- S4: no bytes written. -/
theorem test_motorRun_s4 :
    ran (exec (.motorRun 8#8 0#8) (replying [.bytes s5])) (fun t =>
      t.written == [] && t.replies == [.bytes s5] && t.apiStatus == .status 6#4) = true := by decide

/-- R201's example. -/
theorem test_motorPairRun_example :
    ran (exec (.motorPairRun 3#8 0#8 11#8) (replying [.bytes s5])) (fun t =>
      t.written == [[0x35#8, 0x30#8, 0x07#8, 0x13#8, 0x41#8, 0x4C#8, 0x1C#8]]) = true := by decide

/-- R201: the second coordinate alone is outside the grid. -/
theorem test_motorPairRun_second_outside :
    ran (exec (.motorPairRun 3#8 0#8 12#8) (replying [.bytes s5])) (fun t =>
      t.written == [] && t.apiStatus == .status 6#4) = true := by decide

/-- R202's example. -/
theorem test_optoLine_example :
    ran (exec .motorOptoLineStatus (replying [.bytes
        [0x35#8, 0x30#8, 0x09#8, 0x15#8, 0x78#8, 0x56#8, 0x34#8, 0x12#8, 0x11#8]])) (fun t =>
      t.optoLine == 0x12345678#32) = true := by decide

/-- Section 2.5: too short for the word. -/
theorem test_optoLine_short :
    ran (exec .motorOptoLineStatus (replying [.bytes
        [0x35#8, 0x30#8, 0x07#8, 0x15#8, 0x01#8, 0x02#8, 0x14#8]])) (fun t =>
      t.optoLine == 0#32 && t.apiStatus == .status 5#4) = true := by decide

/-- S7, with the checksum the encoder gives (C2). -/
theorem test_globalReset_s7 :
    ran (exec .globalReset (replying [.bytes [0xFF#8]])) (fun t =>
      t.written == [[0x35#8, 0x00#8, 0x06#8, 0x01#8, 0xFF#8, 0xCD#8]] &&
      respOut t == [0xFF#8] && t.apiStatus == kindOk) = true := by decide

/-- S7: an empty read. -/
theorem test_globalReset_empty_read :
    ran (exec .globalReset (replying [.bytes []])) (fun t => t.apiStatus == .status 5#4) = true := by
  decide

/-! ### Witnesses: for each statement with hypotheses, a state and operands that meet them -/

/-- The invariant holds in a state with a request of ENCODE. -/
theorem inv_asked : Inv (asked (.encode 0x26#8 0x00#8 [0x35#8])) where
  frameWf := rfl
  respWf := rfl
  dataInWf := by decide
  rxInWf := rfl
  statusLegal := by decide
  apiStatusLegal := by rintro c ⟨⟩; decide
  frameValid := .inl rfl
  coordLegal := .inl rfl
  gridLegal := by intro h; cases h
  currentLegal := by decide
  writtenValid := by intro f hf; cases hf
  inFlightWf := by rintro i ⟨⟩

theorem witness_EveryStepKeepsInvariant :
    ∃ (s : State) (t : State), Inv s ∧ step s = .next t ∧ t.frameLen = 6#8 :=
  ⟨_, _, inv_asked, rfl, by decide⟩

/-- The reset line raised while an ENCODE is in progress. -/
theorem witness_ResetLineClearsBlockAndAbandonsOperation :
    ∃ (s : State), s.rst = true ∧ s.inFlight ≠ none ∧ s.status ≠ 0#4 :=
  ⟨raiseReset (got (sampleRequest { asked (.encode 0x26#8 0x00#8 []) with status := 5#4 })), by decide⟩

theorem witness_ResetLineKeepsInputsAndMessageLayer :
    ∃ (s : State), s.rst = true ∧ s.req = true := ⟨raiseReset (asked (.unpack 0x11#8)), by decide⟩

theorem witness_DecodeAfterEncodeIsIdentity :
    wellFormed (.decode 0x30#8 (zeros 255)) = true := by simp [wellFormed]

theorem witness_DecodedInstructionIsWellFormed :
    decode (.message { key := 0x300613#24, arg0 := 7#8, arg1 := 11#8, arg2 := 9#8 })
      = .ok (.motorRun 7#8 11#8) ∧
    decode (.operation { Ports.zero with op := 0b010#3, rxCount := 1#8, rxIn := [(0, 0x16#8)] })
      = .ok (.xorfold [0x16#8]) := ⟨rfl, rfl⟩

/-- The hypotheses of UnlistedOperandsAreIgnored. -/
def Agree (p q : Ports) : Prop :=
  p.op = q.op ∧
  (p.op = 0b000#3 → p.ctrlId = q.ctrlId ∧ p.cmd = q.cmd ∧ p.dlen = q.dlen ∧
    ∀ i, i < p.dlen.toNat → Memory.read p.dataIn i = Memory.read q.dataIn i) ∧
  (p.op = 0b001#3 → p.ctrlId = q.ctrlId) ∧
  (p.op = 0b001#3 ∨ p.op = 0b010#3 → p.rxCount = q.rxCount ∧
    ∀ i, i < p.rxCount.toNat → Memory.read p.rxIn i = Memory.read q.rxIn i) ∧
  (p.op = 0b011#3 → p.rowIn = q.rowIn ∧ p.colIn = q.colIn) ∧
  (p.op = 0b100#3 → p.coordIn = q.coordIn)

/-- One pair of different ports for each clause: a listed operand agrees, another does not. -/
theorem witness_UnlistedOperandsAreIgnored :
    (Agree { Ports.zero with op := 0b000#3, dlen := 1#8, dataIn := [(0, 7#8), (1, 8#8)] }
      { Ports.zero with op := 0b000#3, dlen := 1#8, dataIn := [(0, 7#8), (1, 9#8)], rowIn := 1#8 }) ∧
    (Agree { Ports.zero with op := 0b001#3, ctrlId := 0x26#8, cmd := 1#8 }
      { Ports.zero with op := 0b001#3, ctrlId := 0x26#8, cmd := 2#8 }) ∧
    (Agree { Ports.zero with op := 0b010#3, rxCount := 1#8, rxIn := [(1, 5#8)] }
      { Ports.zero with op := 0b010#3, rxCount := 1#8, ctrlId := 0x30#8 }) ∧
    (Agree { Ports.zero with op := 0b011#3, rowIn := 8#8, colIn := 12#8 }
      { Ports.zero with op := 0b011#3, rowIn := 8#8, colIn := 12#8, coordIn := 0x11#8 }) ∧
    (Agree { Ports.zero with op := 0b100#3, coordIn := 0x8C#8, rowIn := 3#8 }
      { Ports.zero with op := 0b100#3, coordIn := 0x8C#8, rowIn := 4#8 }) ∧
    (Agree { Ports.zero with op := 0b101#3 } { Ports.zero with op := 0b101#3, ctrlId := 0xFF#8 }) := by
  refine ⟨?_, ?_, ?_, ?_, ?_, ?_⟩ <;> (unfold Agree; simp [Ports.zero, Memory.read])

/-- A call for relay 2 (I8), and RELAY_SET with a switch byte of 2. -/
theorem witness_UnknownMessageCallIsRefused :
    (∃ (s : State) (c : MsgCall), s.rst = false ∧ s.inFlight = none ∧ s.req = false ∧ s.call = some c ∧
      ∀ r ∈ messageTable, c.key &&& r.mask ≠ r.pattern) ∧
    (∃ (s : State) (c : MsgCall), s.rst = false ∧ s.inFlight = none ∧ s.req = false ∧ s.call = some c ∧
      c.key = 0x270611#24 ∧ c.arg0 ≠ 0x00#8 ∧ c.arg0 ≠ 0x01#8) :=
  ⟨⟨got (callMessage (plainCall 0x280500#24) State.reset), _, rfl, rfl, rfl, rfl, by decide⟩,
    ⟨got (callMessage { plainCall 0x270611#24 with arg0 := 2#8 } State.reset), _, rfl, rfl, rfl, rfl,
      by decide⟩⟩

theorem test_unknown_call_is_refused :
    refusedAs (step (got (callMessage (plainCall 0x280500#24) State.reset)))
      (.undecodable (.unknownMessage 0x280500#24)) = true := by decide

/-- An operation on the ports, a message called, and an operation in progress. -/
theorem witness_StepRunsTheRequestedInstruction :
    (∃ (s : State), s.rst = false ∧ s.inFlight = none ∧ s.req = true ∧ s.call = none) ∧
    (∃ (s : State) (c : MsgCall) (i : Instr), s.rst = false ∧ s.inFlight = none ∧ s.req = false ∧ s.call = some c ∧
      decode (.message c) = .ok i) ∧
    (∃ (s : State) (i : Instr), s.rst = false ∧ s.inFlight = some i ∧ s.req = false ∧ s.call = none) :=
  ⟨⟨asked (.pack 7#8 11#8), by decide⟩,
    ⟨asked (.motorRun 7#8 11#8), _, .motorRun 7#8 11#8, rfl, rfl, rfl, rfl, rfl⟩,
    ⟨got (sampleRequest (asked (.pack 7#8 11#8))), _, rfl, rfl, rfl, rfl⟩⟩

theorem witness_PlacedInstructionIsWhatTheStepRuns :
    wellFormed (.encode 0x30#8 0x13#8 (zeros 255)) = true := by simp [wellFormed]

/-- R263's three ways to overlap. -/
theorem witness_OverlappingRequestIsStuck :
    (∃ (s : State), s.rst = false ∧ s.inFlight ≠ none ∧ s.req = true) ∧
    (∃ (s : State), s.rst = false ∧ s.inFlight ≠ none ∧ s.call ≠ none) ∧
    (∃ (s : State), s.rst = false ∧ s.req = true ∧ s.call ≠ none) :=
  ⟨⟨{ asked (.unpack 0x11#8) with inFlight := some (.unpack 0x11#8) }, by decide⟩,
    ⟨{ asked .motorPing with inFlight := some (.unpack 0x11#8) }, by decide⟩,
    ⟨{ asked .motorPing with req := true }, by decide⟩⟩

theorem test_overlap_is_stuck :
    faulted (step { asked .motorPing with req := true }) .overlappingRequest = true := by decide

theorem witness_MachineWithoutRequestStays :
    State.reset.rst = false ∧ State.reset.inFlight = none ∧ State.reset.req = false ∧
    State.reset.call = none := by decide

theorem witness_PortChangeDoesNotAffectOperationInProgress :
    ∃ (s : State) (t : State) (i : Instr), s.rst = false ∧ s.inFlight = some i ∧ isOperation i = true ∧ step s = .next t ∧
      t.rowOut = 1#4 :=
  ⟨got (sampleRequest (asked (.unpack 0x22#8))), _, .unpack 0x22#8, rfl, by decide, rfl, rfl, by decide⟩

theorem witness_SampledRequestCompletesAlike :
    ∃ (s : State), s.rst = false ∧ s.inFlight = none ∧ s.req = true ∧ s.call = none :=
  ⟨asked (.pack 8#8 0#8), by decide⟩

theorem witness_FoldIsRunningXor : 4 < ping.length := by decide

/-- The smallest frame is a valid one. -/
theorem validFrame_ping : ValidFrame ping := ⟨by decide, by decide, by decide, by decide, by decide⟩

/-- The frame of S5 is a valid one. -/
theorem validFrame_s5 : ValidFrame s5 := ⟨by decide, by decide, by decide, by decide, by decide⟩

/-- Clauses (a) to (e); clause (d) with the first, second, third and last byte replaced. -/
theorem witness_FoldLaws :
    (4 < ping.length) ∧ [0x01#8, 0x02#8].Perm [0x02#8, 0x01#8] ∧
    (ping ≠ [] ∧ ping.getD (ping.length - 1) 0 = fold ping (ping.length - 1)) ∧
    (ValidFrame s5 ∧ (0 < s5.length ∧ 0x34#8 ≠ s5.getD 0 0) ∧ (1 < s5.length ∧ 0x31#8 ≠ s5.getD 1 0) ∧
      (2 < s5.length ∧ 0x09#8 ≠ s5.getD 2 0) ∧ (7 < s5.length ∧ 0xAF#8 ≠ s5.getD 7 0) ∧
      0x30#8 ≠ 0x00#8 ∧ 0x30#8 = s5.getD 1 0) ∧
    (0 < s5.length ∧ 7 < s5.length ∧ 0 ≠ 7) :=
  ⟨by decide, by decide, by decide, ⟨validFrame_s5, by decide⟩, by decide⟩

theorem witness_XorfoldFoldsTheReceivedBytes :
    (∃ p : Ports, p.op = 0b010#3) ∧ ValidFrame s5 :=
  ⟨⟨{ Ports.zero with op := 0b010#3 }, rfl⟩, validFrame_s5⟩

/-- The longest message that fits and the shortest that does not. -/
theorem witness_EncodeBuildsTheFrame :
    (∃ p : Ports, p.op = 0b000#3) ∧ (zeros 250).length ≤ 250 ∧
    250 < (zeros 251).length := ⟨⟨Ports.zero, rfl⟩, by simp, by simp⟩

theorem witness_OverlongEncodeWritesNoFrame :
    ∃ (s : State), s.rst = false ∧ s.inFlight = none ∧ s.call = none ∧ s.req = true ∧ s.ports.op = 0b000#3 ∧
      s.ports.dlen.toNat = 251 :=
  ⟨got (requestOperation { Ports.zero with dlen := 251#8 } State.reset), by decide⟩

/-- The longest message, for a controller and for the broadcast address. -/
theorem witness_EncodedFrameDecodesToItsMessage :
    (zeros 250).length ≤ 250 ∧ Config.idMotor ≠ 0x00#8 ∧
    Config.idBroadcast = 0x00#8 := ⟨by simp, by decide, rfl⟩

theorem witness_BroadcastDecodeReturnsWholeBuffer :
    ([] : List Byte).length ≤ 255 ∧ (zeros 255).length ≤ 255 ∧
    zeros 255 ≠ [] := ⟨by simp, by simp, fun h => by simpa using congrArg List.length h⟩

theorem witness_ShortBufferIsInvalidLength :
    Config.idMotor ≠ 0x00#8 ∧ (ping.take 4).length < 5 := by decide

/-- The shortest and the longest buffer. -/
theorem witness_ValidatedChecksDecideTheCodeInOrder :
    Config.idMotor ≠ 0x00#8 ∧ (5 ≤ ping.length ∧ ping.length ≤ 255) ∧
    5 ≤ (zeros 255).length ∧ (zeros 255).length ≤ 255 := ⟨by decide, by decide, by simp, by simp⟩

theorem witness_ValidatedDecodeExtractsPayload :
    Config.idRelay 0#1 ≠ 0x00#8 ∧ 5 ≤ ping.length ∧ ping.length ≤ 255 ∧ ping.getD 0 0 = 0x35#8 ∧
    ping.getD 1 0 = Config.idRelay 0#1 ∧ (ping.getD 2 0).toNat = ping.length ∧
    fold ping ping.length = 0x00#8 := by decide

theorem witness_FailedDecodeReportsNothing :
    ∃ t, exec (.decode 0x26#8 (ping.take 4)) State.reset = .next t ∧ t.status ≠ 0#4 :=
  ⟨_, rfl, by decide⟩

/-- Every row of R148 at its boundary. -/
theorem witness_TamperedFrameIsRejectedByItsByte :
    ∃ u, exec (.decode 0x30#8 s5) State.reset = .next u ∧ u.status = 0#4 ∧
      (0 < s5.length ∧ 0x34#8 ≠ s5.getD 0 0) ∧ (1 < s5.length ∧ 0x31#8 ≠ s5.getD 1 0) ∧
      (2 < s5.length ∧ 0x09#8 ≠ s5.getD 2 0) ∧ (3 < s5.length ∧ 0x11#8 ≠ s5.getD 3 0) ∧
      (7 < s5.length ∧ 0xAF#8 ≠ s5.getD 7 0) :=
  ⟨_, rfl, by decide⟩

theorem witness_NegativeAckIsNeverRaised :
    (∃ t, exec (.decode 0x26#8 [0x35#8, 0x26#8, 0x05#8, 0xFF#8, 0xE9#8]) State.reset = .next t ∧
      t.status = 0#4) ∧
    (∃ t, exec (.relayPing 0#1) (replying [.bytes [0x35#8, 0x26#8, 0x05#8, 0xFF#8, 0xE9#8]]) = .next t ∧
      t.apiStatus = kindOk) ∧
    isLegalOperation (.decode 0x26#8 []) = true ∧ isOperation (.relayPing 0#1) = false :=
  ⟨⟨_, rfl, by decide⟩, ⟨_, rfl, by decide⟩, rfl, rfl⟩

theorem witness_PackEncodesOrRejectsCoordinate :
    (∃ p : Ports, p.op = 0b011#3) ∧ (7#8).toNat < 8 ∧ (11#8).toNat < 12 ∧ 8 ≤ (8#8).toNat ∧
    12 ≤ (12#8).toNat := ⟨⟨{ Ports.zero with op := 0b011#3 }, rfl⟩, by decide⟩

theorem witness_PackedNibblesDoNotCarry : (7#8).toNat ≤ 7 ∧ (11#8).toNat ≤ 11 := by decide

theorem witness_UnpackSplitsTheByte : ∃ p : Ports, p.op = 0b100#3 :=
  ⟨{ Ports.zero with op := 0b100#3 }, rfl⟩

theorem witness_CoordinateRoundTrips :
    ((7#8).toNat ≤ 7 ∧ (11#8).toNat ≤ 11) ∧
    ∃ u, exec (.unpack 0x8C#8) State.reset = .next u ∧ u.coordValid = true :=
  ⟨by decide, _, rfl, by decide⟩

theorem witness_ReservedOperationChangesNoState :
    (∃ p : Ports, p.op = 0b101#3) ∧ (∃ p : Ports, p.op = 0b110#3) ∧ (∃ p : Ports, p.op = 0b111#3) :=
  ⟨⟨{ Ports.zero with op := 0b101#3 }, rfl⟩, ⟨{ Ports.zero with op := 0b110#3 }, rfl⟩,
    ⟨{ Ports.zero with op := 0b111#3 }, rfl⟩⟩

/-- Two states that differ, and each legal operation, with a success where its clause asks for one. -/
theorem witness_ResultsDependOnOperandsAlone :
    ∀ i ∈ [Instr.encode 0x26#8 0x00#8 [0x35#8], .decode 0x30#8 s5, .xorfold ping, .pack 7#8 11#8,
        .unpack 0x8C#8],
      isLegalOperation i = true ∧ wellFormed i = true ∧
      ran (exec i State.reset) (fun t => t.status == 0#4) = true ∧
      ran (exec i { State.reset with status := 5#4, coord := 0x11#8 }) (fun t => t.status == 0#4)
        = true := by decide

theorem witness_OperationIsIdempotent :
    ∀ i ∈ [Instr.encode 0x26#8 0x00#8 [0x35#8], .decode 0x30#8 s5, .xorfold ping, .pack 8#8 12#8,
        .unpack 0x00#8, .reserved111],
      isOperation i = true ∧ wellFormed i = true ∧ Memory.wf State.reset.frame = true ∧
      Memory.wf State.reset.resp = true ∧
      ran (exec i State.reset) (fun t => t.status == 0#4 || i != .decode 0x30#8 s5) = true := by decide

/-- Every reply the message statements are about can be met: each kind listed first, and the free one
right after reset, where none is listed. -/
theorem witness_message_replies :
    Meets (replying [.bytes ping]) (.bytes ping) [] 0 ∧
    Meets (replying [.purgeFails]) .purgeFails [] 0 ∧
    Meets (replying [.writeFails]) .writeFails [] 0 ∧
    Meets (replying [.readFails]) .readFails [] 0 ∧
    Meets State.reset (Config.unlistedReply 0) [] 1 :=
  ⟨.inl ⟨rfl, rfl⟩, .inl ⟨rfl, rfl⟩, .inl ⟨rfl, rfl⟩, .inl ⟨rfl, rfl⟩, .inr ⟨rfl, rfl, rfl, rfl⟩⟩

theorem witness_RelayMessagesSendTheirFrames :
    (∃ u, Exchanged 0x26#8 0x00#8 [] ping ping [] 0 (replying [.bytes ping]) u ∧ u.status = 0#4 ∧
        Meets (replying [.bytes ping]) (.bytes ping) [] 0) ∧
    ∃ u, ExchangeFailed 0x26#8 0x00#8 [] ping true [] 0 (replying [.readFails]) u ∧
        Meets (replying [.readFails]) .readFails [] 0 :=
  ⟨⟨_, ⟨_, _, rfl, by decide, by decide, rfl, rfl⟩, by decide, .inl ⟨rfl, rfl⟩⟩,
    ⟨_, ⟨_, rfl, by decide, by decide, rfl⟩, .inl ⟨rfl, rfl⟩⟩⟩

theorem witness_MotorAndGlobalMessagesSendTheirFrames :
    ∃ u, Exchanged 0x00#8 0x01#8 [0xFF#8] [0x35#8, 0x00#8, 0x06#8, 0x01#8, 0xFF#8, 0xCD#8] [0xFF#8] [] 0
      (replying [.bytes [0xFF#8]]) u ∧ u.status = 0#4 ∧
      Meets (replying [.bytes [0xFF#8]]) (.bytes [0xFF#8]) [] 0 :=
  ⟨_, ⟨_, _, rfl, by decide, by decide, rfl, rfl⟩, by decide, .inl ⟨rfl, rfl⟩⟩

/-- The last motor, and one coordinate too far each way. -/
theorem witness_MotorRunSendsItsCoordinate :
    (∃ (s : State) (p : State), (7#8).toNat < 8 ∧ (11#8).toNat < 12 ∧
      exec (.pack 7#8 11#8) { s with ports := drivePack 7#8 11#8 s.ports } = .next p ∧
      Meets s (.bytes s5) [] 0) ∧
    8 ≤ (8#8).toNat ∧ 12 ≤ (12#8).toNat :=
  ⟨⟨replying [.bytes s5], _, by decide, by decide, rfl, .inl ⟨rfl, rfl⟩⟩, by decide⟩

theorem witness_MotorPairRunSendsBothCoordinates :
    (∃ (s : State) (p : State) (q : State), (7#8).toNat < 8 ∧ (0#8).toNat < 12 ∧ (11#8).toNat < 12 ∧
      exec (.pack 7#8 0#8) { s with ports := drivePack 7#8 0#8 s.ports } = .next p ∧
      exec (.pack 7#8 11#8) { p with ports := drivePack 7#8 11#8 p.ports } = .next q ∧
      Meets s (.bytes s5) [] 0) ∧
    8 ≤ (8#8).toNat ∧ 12 ≤ (12#8).toNat :=
  ⟨⟨replying [.bytes s5], _, _, by decide, by decide, by decide, rfl, rfl, .inl ⟨rfl, rfl⟩⟩, by decide⟩

/-- A version reply that DECODE accepts, and S2's literal, which it does not. -/
theorem witness_VersionMessagesGiveTheString :
    (∃ u, Exchanged 0x27#8 0x02#8 [] [0x35#8, 0x27#8, 0x05#8, 0x02#8, 0x15#8] s2 [] 0
      (replying [.bytes s2]) u ∧ u.status = 0#4 ∧ Meets (replying [.bytes s2]) (.bytes s2) [] 0) ∧
    ∃ u, Exchanged 0x27#8 0x02#8 [] [0x35#8, 0x27#8, 0x05#8, 0x02#8, 0x15#8] (s2.set 9 0xCC#8) [] 0
      (replying [.bytes (s2.set 9 0xCC#8)]) u ∧ u.status = 1#4 ∧
        Meets (replying [.bytes (s2.set 9 0xCC#8)]) (.bytes (s2.set 9 0xCC#8)) [] 0 :=
  ⟨⟨_, ⟨_, _, rfl, by decide, by decide, rfl, rfl⟩, by decide, .inl ⟨rfl, rfl⟩⟩,
    ⟨_, ⟨_, _, rfl, by decide, by decide, rfl, rfl⟩, by decide, .inl ⟨rfl, rfl⟩⟩⟩

/-- What MOTOR_STATUS reads after its exchange with this reply. -/
abbrev StatusReply (raw : List Byte) (p : State → Prop) : Prop :=
  ∃ u, Exchanged 0x30#8 0x10#8 [] [0x35#8, 0x30#8, 0x05#8, 0x10#8, 0x10#8] raw [] 0
    (replying [.bytes raw]) u ∧ p u ∧ Meets (replying [.bytes raw]) (.bytes raw) [] 0

/-- Section 2.5's replies, one for each clause: rejected, one byte, two bytes with a wrong echo, and
accepted, without and with active motors. -/
theorem witness_MotorStatusDecodesCurrentAndMotors :
    StatusReply ping (fun u => u.status ≠ 0#4) ∧
    StatusReply [0x35#8, 0x30#8, 0x05#8, 0x10#8, 0x10#8]
      (fun u => u.status = 0#4 ∧ (respOut u).length = 1) ∧
    StatusReply [0x35#8, 0x30#8, 0x06#8, 0x11#8, 0x80#8, 0x92#8]
      (fun u => u.status = 0#4 ∧ (respOut u).length = 2 ∧ (respOut u).getD 0 0 ≠ 0x10#8) ∧
    StatusReply [0x35#8, 0x30#8, 0x06#8, 0x10#8, 0x80#8, 0x93#8]
      (fun u => u.status = 0#4 ∧ (respOut u).length = 2 ∧ (respOut u).getD 0 0 = 0x10#8) ∧
    StatusReply s5 (fun u => u.status = 0#4 ∧ 2 < (respOut u).length ∧
      (respOut u).getD 0 0 = 0x10#8) :=
  ⟨⟨_, ⟨_, _, rfl, by decide, by decide, rfl, rfl⟩, by decide, .inl ⟨rfl, rfl⟩⟩,
    ⟨_, ⟨_, _, rfl, by decide, by decide, rfl, rfl⟩, by decide, .inl ⟨rfl, rfl⟩⟩,
    ⟨_, ⟨_, _, rfl, by decide, by decide, rfl, rfl⟩, by decide, .inl ⟨rfl, rfl⟩⟩,
    ⟨_, ⟨_, _, rfl, by decide, by decide, rfl, rfl⟩, by decide, .inl ⟨rfl, rfl⟩⟩,
    ⟨_, ⟨_, _, rfl, by decide, by decide, rfl, rfl⟩, by decide, .inl ⟨rfl, rfl⟩⟩⟩

theorem witness_CurrentScalingIsMonotonic : (254#8).toNat ≤ (255#8).toNat := by decide

/-- What MOTOR_OPTO_LINE_STATUS reads after its exchange with this reply. -/
abbrev OptoReply (raw : List Byte) (p : State → Prop) : Prop :=
  ∃ u, Exchanged 0x30#8 0x15#8 [] [0x35#8, 0x30#8, 0x05#8, 0x15#8, 0x15#8] raw [] 0
    (replying [.bytes raw]) u ∧ p u ∧ Meets (replying [.bytes raw]) (.bytes raw) [] 0

/-- Rejected, four bytes, and five bytes. -/
theorem witness_OptoLineStatusIsLittleEndian :
    OptoReply ping (fun u => u.status ≠ 0#4) ∧
    OptoReply [0x35#8, 0x30#8, 0x08#8, 0x15#8, 0x01#8, 0x02#8, 0x03#8, 0x18#8]
      (fun u => u.status = 0#4 ∧ (respOut u).length = 4) ∧
    OptoReply [0x35#8, 0x30#8, 0x09#8, 0x15#8, 0x78#8, 0x56#8, 0x34#8, 0x12#8, 0x11#8]
      (fun u => u.status = 0#4 ∧ (respOut u).length = 5) :=
  ⟨⟨_, ⟨_, _, rfl, by decide, by decide, rfl, rfl⟩, by decide, .inl ⟨rfl, rfl⟩⟩,
    ⟨_, ⟨_, _, rfl, by decide, by decide, rfl, rfl⟩, by decide, .inl ⟨rfl, rfl⟩⟩,
    ⟨_, ⟨_, _, rfl, by decide, by decide, rfl, rfl⟩, by decide, .inl ⟨rfl, rfl⟩⟩⟩

theorem witness_TransportFailureZeroesOutputs :
    Meets (replying [.purgeFails, .bytes s5]) .purgeFails [.bytes s5] 0 ∧
    Meets (replying [.writeFails]) .writeFails [] 0 ∧
    Meets (replying [.readFails]) .readFails [] 0 :=
  ⟨.inl ⟨rfl, rfl⟩, .inl ⟨rfl, rfl⟩, .inl ⟨rfl, rfl⟩⟩

theorem witness_AtMostOneExchangePerInstruction :
    (∃ t, exec .motorPing (replying [.bytes ping]) = .next t) ∧
    ∃ t, exec (.pack 0#8 0#8) State.reset = .next t ∧ isOperation (.pack 0#8 0#8) = true :=
  ⟨⟨_, rfl⟩, ⟨_, rfl, rfl⟩⟩

theorem witness_SentFrameReadsBackAsItsMessage :
    inGridMessage (.motorPairRun 7#8 0#8 11#8) = true ∧
    (∃ t, Meets (replying [.bytes s5]) (.bytes s5) [] 0 ∧ Reply.bytes s5 ≠ .purgeFails ∧
      exec (.motorPairRun 7#8 0#8 11#8) (replying [.bytes s5]) = .next t) ∧
    (∃ t, Meets (replying [.purgeFails]) .purgeFails [] 0 ∧
      exec (.motorPairRun 7#8 0#8 11#8) (replying [.purgeFails]) = .next t) ∧
    ∃ t, Meets State.reset (Config.unlistedReply 0) [] 1 ∧
      exec (.motorPairRun 7#8 0#8 11#8) State.reset = .next t :=
  ⟨by decide, ⟨_, .inl ⟨rfl, rfl⟩, by decide, rfl⟩, ⟨_, .inl ⟨rfl, rfl⟩, rfl⟩,
    ⟨_, .inr ⟨rfl, rfl, rfl, rfl⟩, rfl⟩⟩

/-- R263, each way a request can come too early, the free host, and an operation that stays in
progress. -/
theorem witness_OverlappingIssueHasNoStep :
    (got (sampleRequest (asked (.unpack 0x11#8)))).inFlight ≠ none ∧
    (asked (.unpack 0x11#8)).req = true ∧ (asked .motorPing).call ≠ none ∧
    (State.reset.inFlight = none ∧ State.reset.req = false ∧ State.reset.call = none) ∧
    (∃ (s : State), s.rst = false ∧ s.inFlight ≠ none ∧ s.req = true) ∧
    (∃ (s : State), s.rst = false ∧ s.inFlight ≠ none ∧ s.call ≠ none) ∧
    (∃ (s : State), s.rst = false ∧ s.req = true ∧ s.call ≠ none) ∧
    ∃ (s : State), s.rst = false ∧ s.inFlight ≠ none ∧ s.req = false ∧ s.call = none :=
  ⟨by decide, by decide, by decide, by decide,
    ⟨{ asked (.unpack 0x11#8) with inFlight := some (.unpack 0x11#8) }, by decide⟩,
    ⟨{ asked .motorPing with inFlight := some (.unpack 0x11#8) }, by decide⟩,
    ⟨{ asked .motorPing with req := true }, by decide⟩,
    ⟨got (sampleRequest (asked (.unpack 0x11#8))), by decide⟩⟩

/-- A request that stands alone, its step, its sampling, and both ways to issue from reset. -/
theorem witness_RequestsStayOneAtATime :
    OneAtATime (asked (.unpack 0x22#8)) ∧ (∃ t, step (asked (.unpack 0x22#8)) = .next t) ∧
    (∃ t, sampleRequest (asked (.unpack 0x22#8)) = .next t ∧ t.inFlight = some (.unpack 0x22#8)) ∧
    OneAtATime State.reset ∧ (∃ t, requestOperation Ports.zero State.reset = .next t) ∧
    ∃ t, callMessage (plainCall 0x300500#24) State.reset = .next t :=
  ⟨⟨fun h => absurd rfl h, fun _ => rfl⟩, ⟨_, rfl⟩, ⟨_, rfl, rfl⟩,
    ⟨fun h => absurd rfl h, fun _ => rfl⟩, ⟨_, rfl⟩, ⟨_, rfl⟩⟩

/-- R263: a second operation, a second call and a request under an operation in progress have no step. -/
theorem test_early_request_has_no_step :
    faulted (requestOperation Ports.zero (asked (.unpack 0x11#8))) .overlappingRequest = true ∧
    faulted (callMessage (plainCall 0x300500#24) (asked .motorPing)) .overlappingRequest = true ∧
    faulted (requestOperation Ports.zero (got (sampleRequest (asked (.unpack 0x11#8)))))
      .overlappingRequest = true := by decide

end Sys2Proof.Tests
end

section
/-! SUPPORT. The family of 10_state.md: what reset leaves in the registers (R42), a machine nobody
asks (log 2), the operand ports under an operation in progress (R38), and the rise of DONE (R39). -/

namespace Sys2Proof.Machine

/-! ### Reset and the idle machine -/

/-- Settles O1: every field of the reset state is the literal that R42 lists, and an empty buffer
reads zero at every index. -/
theorem resetLeavesEveryRegisterAtZero : Obligations.ResetLeavesEveryRegisterAtZero :=
  ⟨rfl, rfl, fun i _ => Memory.read_nil i, rfl, fun i _ => Memory.read_nil i, rfl,
    rfl, rfl, rfl, rfl, rfl⟩

/-- With REQ low and no call there is nothing to fetch. -/
theorem fetch_idle {s : State} (hreq : s.req = false) (hcall : s.call = none) :
    fetch s = .idle := by simp [fetch, hreq, hcall]

/-- Settles O16: an idle fetch leaves the step nothing to do. -/
theorem machineWithoutRequestStays : Obligations.MachineWithoutRequestStays :=
  fun _ hrst hfl hreq hcall => step_idle hrst hfl (fetch_idle hreq hcall)

/-! ### The block operations and the operand ports

An operation works on operand values already sampled, so it neither reads nor writes the ports. -/

theorem runEncode_setPorts (c m : Byte) (d : List Byte) (p : Ports) (s : State) :
    runEncode c m d { s with ports := p } = { runEncode c m d s with ports := p } := by
  rcases Nat.lt_or_ge 250 d.length with h | h
  · rw [runEncode_tooLong h, runEncode_tooLong h]
  · rw [runEncode_fits h, runEncode_fits h]

theorem runDecode_setPorts (ctx : Byte) (raw : List Byte) (p : Ports) (s : State) :
    runDecode ctx raw { s with ports := p } = { runDecode ctx raw s with ports := p } := by
  by_cases h : decodeStatus ctx raw = statusOk
  · rw [runDecode_ok h, runDecode_ok h]
  · rw [runDecode_fails h, runDecode_fails h]

theorem runPack_setPorts (row col : Byte) (p : Ports) (s : State) :
    runPack row col { s with ports := p } = { runPack row col s with ports := p } := by
  cases h : coordInRange row col with
  | true => rw [runPack_inRange h, runPack_inRange h]
  | false => rw [runPack_outOfRange h, runPack_outOfRange h]

/-- A block operation completes alike whatever the ports hold. A pseudo-instruction does not: it
drives some of them itself. -/
theorem exec_setPorts {i : Instr} (hop : isOperation i = true) (p : Ports) (s : State) :
    ∃ t, exec i s = .next t ∧ exec i { s with ports := p } = .next { t with ports := p } := by
  cases i with
  | encode c m d => exact ⟨_, rfl, congrArg _ (runEncode_setPorts c m d p s)⟩
  | decode ctx raw => exact ⟨_, rfl, congrArg _ (runDecode_setPorts ctx raw p s)⟩
  | xorfold l => exact ⟨_, rfl, rfl⟩
  | pack row col => exact ⟨_, rfl, congrArg _ (runPack_setPorts row col p s)⟩
  | unpack b => exact ⟨_, rfl, rfl⟩
  | reserved101 => exact ⟨_, rfl, rfl⟩
  | reserved110 => exact ⟨_, rfl, rfl⟩
  | reserved111 => exact ⟨_, rfl, rfl⟩
  | _ => cases hop

/-- An operation in progress whose step answers a next state has no request beside it. -/
theorem requested_eq_false_of_step_inFlight {s t : State} {i : Instr} (hrst : s.rst = false)
    (hfl : s.inFlight = some i) (hstep : step s = .next t) : requested s = false := by
  cases hreq : requested s with
  | false => rfl
  | true => rw [step_inFlight_overlap hrst hfl hreq] at hstep; cases hstep

/-- Settles O17: both steps run the sampled operation, on accepted states that differ in the ports
alone. -/
theorem portChangeDoesNotAffectOperationInProgress :
    Obligations.PortChangeDoesNotAffectOperationInProgress := by
  intro s t p i hrst hfl hop hstep
  have hreq := requested_eq_false_of_step_inFlight hrst hfl hstep
  obtain ⟨u, hu, hup⟩ := exec_setPorts hop p (accept s)
  have htu : t = u := by
    rw [step_inFlight hrst hfl hreq, hu] at hstep
    injection hstep with hut
    exact hut.symm
  calc step { s with ports := p }
      = exec i { accept s with ports := p } :=
        step_inFlight (s := { s with ports := p }) hrst hfl hreq
    _ = .next { t with ports := p } := by rw [hup, htu]

/-! ### DONE at the end of each operation and message -/

@[simp] theorem runEncode_done (c m : Byte) (d : List Byte) (s : State) :
    (runEncode c m d s).done = true := by
  rcases Nat.lt_or_ge 250 d.length with h | h
  · rw [runEncode_tooLong h]
  · rw [runEncode_fits h]

@[simp] theorem runDecode_done (ctx : Byte) (raw : List Byte) (s : State) :
    (runDecode ctx raw s).done = true := by
  by_cases h : decodeStatus ctx raw = statusOk
  · rw [runDecode_ok h]
  · rw [runDecode_fails h]

@[simp] theorem runPack_done (row col : Byte) (s : State) : (runPack row col s).done = true := by
  cases h : coordInRange row col with
  | true => rw [runPack_inRange h]
  | false => rw [runPack_outOfRange h]

@[simp] theorem issuePack_done (row col : Byte) (s : State) : (issuePack row col s).done = true :=
  runPack_done row col _

theorem transact_done {d : List Byte} (h : d.length ≤ 250) (c m : Byte) (s : State) :
    (transact c m d s).1.done = true := (transact_ends h c m s).1

/-- A request whose outcome is OK has left OK in STATUS. -/
theorem transact_status_of_ok {d : List Byte} (h : d.length ≤ 250) (c m : Byte) (s : State)
    (hok : (transact c m d s).2 = kindOk) : (transact c m d s).1.status = statusOk := by
  obtain ⟨_, _, _, _, hstatus⟩ := transact_ends h c m s
  exact (hstatus statusOk hok).symm

theorem plainMessage_done {d : List Byte} (h : d.length ≤ 250) (c m : Byte) (s : State) :
    (plainMessage c m d s).done = true := transact_done h c m s

theorem versionMessage_done (c : Byte) (s : State) : (versionMessage c s).done = true := by
  have hdone := transact_done (d := []) (by simp) c 0x02#8 s
  by_cases h : (transact c 0x02#8 [] s).2 = kindOk
  · rw [versionMessage, versionOf_ok h]; exact hdone
  · rw [versionMessage, versionOf_fails h]; exact hdone

/-- MOTOR_STATUS ends with DONE: its UNPACKs, where it comes to them, each raise it again. -/
theorem motorStatusOf_done {x : State × ErrorKind} (hdone : x.1.done = true)
    (hok : x.2 = kindOk → x.1.status = statusOk) : (motorStatusOf x).done = true := by
  rcases motorStatusOf_cases x with ⟨_, e⟩ | ⟨_, _, e⟩ | ⟨_, _, _, e⟩ | ⟨hk, _, _, e⟩
  · rw [e]; exact hdone
  · rw [e]; exact hdone
  · rw [e]; exact hdone
  · rw [e]; exact (unpackAll_status _ _ (hok hk) hdone).2

theorem optoLineOf_done {x : State × ErrorKind} (hdone : x.1.done = true) :
    (optoLineOf x).done = true := by
  rcases optoLineOf_cases x with ⟨_, e⟩ | ⟨_, _, e⟩ | ⟨_, _, e⟩ <;> rw [e] <;> exact hdone

/-- MOTOR_RUN completes, with its request inside the grid and at PACK's failure outside. -/
theorem execMotorRun_completes (row col : Byte) (s : State) :
    ∃ t, execMotorRun row col s = .next t ∧ t.done = true := by
  cases h : coordInRange row col with
  | true => exact ⟨_, execMotorRun_inGrid h s, plainMessage_done (by simp) _ _ _⟩
  | false => exact ⟨_, execMotorRun_outside h s, issuePack_done row col s⟩

/-- MOTOR_PAIR_RUN completes, with its request or at the first PACK that fails. -/
theorem execMotorPairRun_completes (row c1 c2 : Byte) (s : State) :
    ∃ t, execMotorPairRun row c1 c2 s = .next t ∧ t.done = true := by
  cases h1 : coordInRange row c1 with
  | false => exact ⟨_, execMotorPairRun_firstOutside h1 c2 s, issuePack_done row c1 s⟩
  | true =>
    cases h2 : coordInRange row c2 with
    | true => exact ⟨_, execMotorPairRun_inGrid h1 h2 s, plainMessage_done (by simp) _ _ _⟩
    | false => exact ⟨_, execMotorPairRun_secondOutside h1 h2 s, issuePack_done row c2 _⟩

/-- Settles O48: each arm of `exec` answers the state that its operation or message ends in, and
that state has DONE raised. -/
theorem everyInstructionCompletes : Obligations.EveryInstructionCompletes := by
  intro i s
  cases i with
  | encode c m d => exact ⟨_, rfl, runEncode_done c m d s⟩
  | decode ctx raw => exact ⟨_, rfl, runDecode_done ctx raw s⟩
  | xorfold l => exact ⟨_, rfl, finish_done _⟩
  | pack row col => exact ⟨_, rfl, runPack_done row col s⟩
  | unpack b => exact ⟨_, rfl, finish_done _⟩
  | reserved101 => exact ⟨_, rfl, finish_done s⟩
  | reserved110 => exact ⟨_, rfl, finish_done s⟩
  | reserved111 => exact ⟨_, rfl, finish_done s⟩
  | relayPing id => exact ⟨_, rfl, plainMessage_done (by simp) _ _ s⟩
  | relayVersion id => exact ⟨_, rfl, versionMessage_done _ s⟩
  | relayReset id => exact ⟨_, rfl, plainMessage_done (by simp) _ _ s⟩
  | relaySet id on => exact ⟨_, rfl, plainMessage_done (by simp) _ _ s⟩
  | motorPing => exact ⟨_, rfl, plainMessage_done (by simp) _ _ s⟩
  | motorVersion => exact ⟨_, rfl, versionMessage_done _ s⟩
  | motorReset => exact ⟨_, rfl, plainMessage_done (by simp) _ _ s⟩
  | motorStatus =>
    exact ⟨_, rfl, motorStatusOf_done (transact_done (by simp) _ _ s)
      (transact_status_of_ok (by simp) _ _ s)⟩
  | motorStopAll => exact ⟨_, rfl, plainMessage_done (by simp) _ _ s⟩
  | motorRun row col => exact execMotorRun_completes row col s
  | motorPairRun row c1 c2 => exact execMotorPairRun_completes row c1 c2 s
  | motorOptoLineStatus => exact ⟨_, rfl, optoLineOf_done (transact_done (by simp) _ _ s)⟩
  | globalReset => exact ⟨_, rfl, plainMessage_done (by simp) _ _ s⟩

end Sys2Proof.Machine
end

section
/-! SUPPORT. The family of 20_memory.md: a run of bytes written at index 0 reads back alike over any two
buffers, and writing it twice changes nothing more; so an operation's results come from its operands
alone, and issuing it again on its own result gives that result (R57). -/

namespace Sys2Proof.Machine

/-! ### A run of bytes written over a buffer -/

/-- What a byte below a written run reads is the run's, whatever the buffer held before. -/
theorem Memory.read_writeBytes_zero {l : List Byte} (hl : l.length ≤ Config.bufSize) {a : Nat}
    (ha : a < l.length) (m : Memory) : Memory.read (Memory.writeBytes m 0 l) a = l.getD a 0 := by
  rw [Memory.read_writeBytes l m 0 a (by omega), if_pos (by omega), Nat.sub_zero]

/-- The same run written again at the same place leaves a canonical buffer as it is. -/
theorem Memory.writeBytes_idem {m : Memory} (hm : Memory.wf m = true) {i : Nat} {l : List Byte}
    (hl : i + l.length ≤ Config.bufSize) :
    Memory.writeBytes (Memory.writeBytes m i l) i l = Memory.writeBytes m i l := by
  have hwf := Memory.wf_writeBytes hm i l
  refine Memory.ext_of_read (Memory.wf_writeBytes hwf i l) hwf fun j => ?_
  rw [Memory.read_writeBytes l _ i j hl]
  split
  next hj => rw [Memory.read_writeBytes l m i j hl, if_pos hj]
  next => rfl

/-- An 8-bit length register never claims more bytes than were counted into it. -/
theorem lt_of_lt_toNat_ofNat {a n : Nat} (h : a < (BitVec.ofNat 8 n).toNat) : a < n :=
  Nat.lt_of_lt_of_le h (by rw [BitVec.toNat_ofNat]; exact Nat.mod_le n _)

theorem length_frameBytes_le {d : List Byte} (h : d.length ≤ 250) (c m : Byte) :
    (frameBytes c m d).length ≤ Config.bufSize := (validFrame_frameBytes c m d h).atMost255

/-! ### The results of an operation in two states -/

/-- ENCODE's results in `s` and in `s'`. CSUM and FRAME are results only of an ENCODE that succeeds
(R122). -/
theorem runEncode_results (c m : Byte) (d : List Byte) (s s' : State) :
    (runEncode c m d s).status = (runEncode c m d s').status ∧
    (runEncode c m d s).frameLen = (runEncode c m d s').frameLen ∧
    ((runEncode c m d s).status = 0#4 →
      (runEncode c m d s).csum = (runEncode c m d s').csum ∧
      ∀ a, a < (runEncode c m d s).frameLen.toNat →
        Memory.read (runEncode c m d s).frame a = Memory.read (runEncode c m d s').frame a) := by
  rcases Nat.lt_or_ge 250 d.length with h | h
  · rw [runEncode_tooLong h, runEncode_tooLong h]
    exact ⟨rfl, rfl, nofun⟩
  · rw [runEncode_fits h, runEncode_fits h]
    refine ⟨rfl, rfl, fun _ => ⟨rfl, fun a ha => ?_⟩⟩
    have hfit := length_frameBytes_le h c m
    have hlt : a < (frameBytes c m d).length := by
      rw [length_frameBytes]; exact lt_of_lt_toNat_ofNat ha
    exact (Memory.read_writeBytes_zero hfit hlt _).trans
      (Memory.read_writeBytes_zero hfit hlt _).symm

/-- DECODE's results in `s` and in `s'`. RESP is a result only of a DECODE that succeeds (R146). -/
theorem runDecode_results (ctx : Byte) {raw : List Byte} (hr : raw.length ≤ 255) (s s' : State) :
    (runDecode ctx raw s).respLen = (runDecode ctx raw s').respLen ∧
    ((runDecode ctx raw s).status = 0#4 → ∀ a, a < (runDecode ctx raw s).respLen.toNat →
      Memory.read (runDecode ctx raw s).resp a = Memory.read (runDecode ctx raw s').resp a) := by
  by_cases h : decodeStatus ctx raw = statusOk
  · rw [runDecode_ok h, runDecode_ok h]
    refine ⟨rfl, fun _ a ha => ?_⟩
    have hfit : (decodePayload ctx raw).length ≤ Config.bufSize := length_decodePayload_le hr
    have hlt : a < (decodePayload ctx raw).length := lt_of_lt_toNat_ofNat ha
    exact (Memory.read_writeBytes_zero hfit hlt _).trans
      (Memory.read_writeBytes_zero hfit hlt _).symm
  · rw [runDecode_fails h, runDecode_fails h]
    exact ⟨rfl, fun hok => absurd hok h⟩

theorem runPack_results (row col : Byte) (s s' : State) :
    (runPack row col s).status = (runPack row col s').status ∧
    (runPack row col s).coord = (runPack row col s').coord := by
  cases h : coordInRange row col with
  | true => rw [runPack_inRange h, runPack_inRange h]; exact ⟨rfl, rfl⟩
  | false => rw [runPack_outOfRange h, runPack_outOfRange h]; exact ⟨rfl, rfl⟩

/-- Settles O37: each legal operation answers the state of its run, whose results agree; XORFOLD and
UNPACK write theirs as plain functions of the operands. -/
theorem resultsDependOnOperandsAlone : Obligations.ResultsDependOnOperandsAlone := by
  intro i s s' t t' hlegal hwf ht ht'
  cases i with
  | encode c m d =>
    cases ht; cases ht'
    obtain ⟨hstatus, hresults⟩ := runEncode_results c m d s s'
    exact ⟨hstatus, by rintro _ _ _ ⟨⟩; exact hresults, nofun, nofun, nofun, nofun⟩
  | decode ctx raw =>
    cases ht; cases ht'
    have hresults := runDecode_results ctx (of_decide_eq_true hwf) s s'
    have hstatus := (runDecode_status ctx raw s).trans (runDecode_status ctx raw s').symm
    exact ⟨hstatus, nofun, by rintro _ _ ⟨⟩; exact hresults, nofun, nofun, nofun⟩
  | xorfold l =>
    cases ht; cases ht'
    exact ⟨rfl, nofun, nofun, fun _ _ => rfl, nofun, nofun⟩
  | pack row col =>
    cases ht; cases ht'
    obtain ⟨hstatus, hcoord⟩ := runPack_results row col s s'
    exact ⟨hstatus, nofun, nofun, nofun, fun _ _ _ => hcoord, nofun⟩
  | unpack b =>
    cases ht; cases ht'
    exact ⟨rfl, nofun, nofun, nofun, nofun, fun _ _ => ⟨rfl, rfl, rfl⟩⟩
  | _ => cases hlegal

/-! ### An operation issued twice -/

theorem runEncode_idem (c m : Byte) (d : List Byte) {s : State} (hs : Memory.wf s.frame = true) :
    runEncode c m d (runEncode c m d s) = runEncode c m d s := by
  rcases Nat.lt_or_ge 250 d.length with h | h
  · simp only [runEncode_tooLong h]
  · have hfit := (Nat.zero_add _).trans_le (length_frameBytes_le h c m)
    simp only [runEncode_fits h, Memory.writeBytes_idem hs hfit]

/-- A failed DECODE is left out: each one draws the bytes of RESP anew (R146). -/
theorem runDecode_idem {ctx : Byte} {raw : List Byte} (hr : raw.length ≤ 255)
    (hok : decodeStatus ctx raw = statusOk) {s : State} (hs : Memory.wf s.resp = true) :
    runDecode ctx raw (runDecode ctx raw s) = runDecode ctx raw s := by
  have hfit : 0 + (decodePayload ctx raw).length ≤ Config.bufSize :=
    (Nat.zero_add _).trans_le (length_decodePayload_le hr)
  simp only [runDecode_ok hok, Memory.writeBytes_idem hs hfit]

theorem runPack_idem (row col : Byte) (s : State) :
    runPack row col (runPack row col s) = runPack row col s := by
  cases h : coordInRange row col with
  | true => simp only [runPack_inRange h]
  | false => simp only [runPack_outOfRange h]

/-- Settles O38: each operation but a failing DECODE is idempotent on the state; a reserved OP value
only raises DONE (R71, log 6). -/
theorem operationIsIdempotent : Obligations.OperationIsIdempotent := by
  intro i s t hop hwf hframe hresp ht hok
  cases i with
  | encode c m d => cases ht; exact congrArg Host.Outcome.next (runEncode_idem c m d hframe)
  | decode ctx raw =>
    cases ht
    have hstatus : decodeStatus ctx raw = statusOk := by
      rcases hok with hstatus | hother
      · rwa [runDecode_status] at hstatus
      · exact absurd rfl (hother ctx raw)
    exact congrArg Host.Outcome.next (runDecode_idem (of_decide_eq_true hwf) hstatus hresp)
  | xorfold l => cases ht; rfl
  | pack row col => cases ht; exact congrArg Host.Outcome.next (runPack_idem row col s)
  | unpack b => cases ht; rfl
  | reserved101 => cases ht; rfl
  | reserved110 => cases ht; rfl
  | reserved111 => cases ht; rfl
  | _ => cases hop

end Sys2Proof.Machine
end

section
/-! SUPPORT. The family of 30_encoding.md: the instruction each OP value asks for and the operands
it reads (R70, R71), the table's rows, and the frame of a message, from whose key and payload the
message table reads the message back (R84, R190). -/

namespace Sys2Proof.Machine

/-! ### The operation word, an equation per OP value (R70) -/

theorem decodeOperation_encode {p : Ports} (h : p.op = 0b000#3) :
    decodeOperation p = .encode p.ctrlId p.cmd (portData p) := by simp [decodeOperation, h]

theorem decodeOperation_decode {p : Ports} (h : p.op = 0b001#3) :
    decodeOperation p = .decode p.ctrlId (portRx p) := by simp [decodeOperation, h]

theorem decodeOperation_xorfold {p : Ports} (h : p.op = 0b010#3) :
    decodeOperation p = .xorfold (portRx p) := by simp [decodeOperation, h]

theorem decodeOperation_pack {p : Ports} (h : p.op = 0b011#3) :
    decodeOperation p = .pack p.rowIn p.colIn := by simp [decodeOperation, h]

theorem decodeOperation_unpack {p : Ports} (h : p.op = 0b100#3) :
    decodeOperation p = .unpack p.coordIn := by simp [decodeOperation, h]

theorem decodeOperation_reserved101 {p : Ports} (h : p.op = 0b101#3) :
    decodeOperation p = .reserved101 := by simp [decodeOperation, h]

theorem decodeOperation_reserved110 {p : Ports} (h : p.op = 0b110#3) :
    decodeOperation p = .reserved110 := by simp [decodeOperation, h]

theorem decodeOperation_reserved111 {p : Ports} (h : p.op = 0b111#3) :
    decodeOperation p = .reserved111 := by simp [decodeOperation, h]

theorem op_cases (op : BitVec 3) :
    op = 0b000#3 ∨ op = 0b001#3 ∨ op = 0b010#3 ∨ op = 0b011#3 ∨ op = 0b100#3 ∨ op = 0b101#3 ∨
      op = 0b110#3 ∨ op = 0b111#3 := by
  revert op; decide

/-- Settles O36: the equations of the three reserved OP values; each one's meaning is DONE alone. -/
theorem reservedOperationChangesNoState : Obligations.ReservedOperationChangesNoState :=
  ⟨fun _ => decodeOperation_reserved101, fun _ => decodeOperation_reserved110,
    fun _ => decodeOperation_reserved111, fun _ => ⟨rfl, rfl, rfl⟩⟩

/-- Settles O8: the three operation words by their OP values, the three messages by their keys. -/
theorem tableWordsDecodeToTheirRows : Obligations.TableWordsDecodeToTheirRows :=
  ⟨rfl, rfl, rfl, rfl, rfl, rfl⟩

/-! ### Operands that are not listed -/

/-- Only the bytes below the count are sampled (R35, R36). -/
theorem Memory.bytes_congr {m m' : Memory} {n : Nat}
    (h : ∀ i, i < n → Memory.read m i = Memory.read m' i) : Memory.bytes m n = Memory.bytes m' n :=
  List.map_congr_left fun i hi => h i (List.mem_range.1 hi)

theorem portData_congr {p q : Ports} (hlen : p.dlen = q.dlen)
    (h : ∀ i, i < p.dlen.toNat → Memory.read p.dataIn i = Memory.read q.dataIn i) :
    portData p = portData q :=
  (Memory.bytes_congr h).trans (by rw [hlen]; rfl)

theorem portRx_congr {p q : Ports} (hcount : p.rxCount = q.rxCount)
    (h : ∀ i, i < p.rxCount.toNat → Memory.read p.rxIn i = Memory.read q.rxIn i) :
    portRx p = portRx q :=
  (Memory.bytes_congr h).trans (by rw [hcount]; rfl)

/-- Settles O9: by the OP value both ports hold, since each operation's equation reads the operands
it lists and no other. -/
theorem unlistedOperandsAreIgnored : Obligations.UnlistedOperandsAreIgnored := by
  intro p q hop hencode hctx hrx hpack hunpack
  refine congrArg Except.ok ?_
  rcases op_cases p.op with hp | hp | hp | hp | hp | hp | hp | hp <;> have hq := hop ▸ hp
  · obtain ⟨hid, hcmd, hlen, hdata⟩ := hencode hp
    rw [decodeOperation_encode hp, decodeOperation_encode hq, hid, hcmd, portData_congr hlen hdata]
  · obtain ⟨hcount, hbytes⟩ := hrx (.inl hp)
    rw [decodeOperation_decode hp, decodeOperation_decode hq, hctx hp, portRx_congr hcount hbytes]
  · obtain ⟨hcount, hbytes⟩ := hrx (.inr hp)
    rw [decodeOperation_xorfold hp, decodeOperation_xorfold hq, portRx_congr hcount hbytes]
  · obtain ⟨hrow, hcol⟩ := hpack hp
    rw [decodeOperation_pack hp, decodeOperation_pack hq, hrow, hcol]
  · rw [decodeOperation_unpack hp, decodeOperation_unpack hq, hunpack hp]
  · rw [decodeOperation_reserved101 hp, decodeOperation_reserved101 hq]
  · rw [decodeOperation_reserved110 hp, decodeOperation_reserved110 hq]
  · rw [decodeOperation_reserved111 hp, decodeOperation_reserved111 hq]

/-! ### The frame a message hands over

Only the request of a message writes: what comes before it (PACK) and what is made of its response
(R204 to R207) hand no frame to the transport. -/

theorem versionOf_written (x : State × ErrorKind) : (versionOf x).written = x.1.written := by
  by_cases h : x.2 = kindOk
  · rw [versionOf_ok h]; rfl
  · rw [versionOf_fails h]; rfl

theorem motorStatusOf_written (x : State × ErrorKind) :
    (motorStatusOf x).written = x.1.written := by
  rcases motorStatusOf_cases x with ⟨_, e⟩ | ⟨_, _, e⟩ | ⟨_, _, _, e⟩ | ⟨_, _, _, e⟩
  · rw [e]
  · rw [e]
  · rw [e]
  · rw [e, unpackAll_state]

theorem optoLineOf_written (x : State × ErrorKind) : (optoLineOf x).written = x.1.written := by
  rcases optoLineOf_cases x with ⟨_, e⟩ | ⟨_, _, e⟩ | ⟨_, _, e⟩ <;> rw [e]

theorem issuePack_written (row col : Byte) (s : State) :
    (issuePack row col s).written = s.written := by
  cases h : coordInRange row col with
  | true => rw [issuePack_inRange h]
  | false => rw [issuePack_outOfRange h]

/-- PACK is no exchange: the reply that comes next stays the next one. -/
theorem Meets.issuePack {s : State} {r : Reply} {rest : List Reply} {n : Nat}
    (hm : Meets s r rest n) (row col : Byte) : Meets (issuePack row col s) r rest n := by
  cases h : coordInRange row col with
  | true => rw [issuePack_inRange h]; exact hm
  | false => rw [issuePack_outOfRange h]; exact hm

/-- Whatever reply it meets, `i` hands over the one frame of this request, and none where the purge
before the write fails (R60). -/
def SendsRequest (i : Instr) (c m : Byte) (d : List Byte) : Prop :=
  ∀ (s t : State) (r : Reply) (rest : List Reply) (n : Nat), Meets s r rest n → exec i s = .next t →
    t.written = if r = .purgeFails then s.written else s.written ++ [frameBytes c m d]

/-- A message that starts with its request and makes `ending` of the outcome, writing no more. -/
theorem sendsRequest_of_transact {i : Instr} {c m : Byte} {d : List Byte} (hd : d.length ≤ 250)
    {ending : State × ErrorKind → State}
    (hexec : ∀ s, exec i s = .next (ending (transact c m d s)))
    (hending : ∀ x, (ending x).written = x.1.written) : SendsRequest i c m d := by
  intro s t r rest n hm ht
  cases (hexec s).symm.trans ht
  rw [hending, transact_written_of_meets hd c m hm]

theorem sendsRequest_of_plainMessage {i : Instr} {c m : Byte} {d : List Byte} (hd : d.length ≤ 250)
    (hexec : ∀ s, exec i s = .next (plainMessage c m d s)) : SendsRequest i c m d :=
  sendsRequest_of_transact hd hexec endCall_written

theorem sendsRequest_of_versionMessage {i : Instr} {c : Byte}
    (hexec : ∀ s, exec i s = .next (versionMessage c s)) : SendsRequest i c 0x02#8 [] :=
  sendsRequest_of_transact (Nat.zero_le 250) hexec versionOf_written

theorem sendsRequest_motorRun {row col : Byte} (h : coordInRange row col = true) :
    SendsRequest (.motorRun row col) Config.idMotor 0x13#8 [coordByte row col] := by
  intro s t r rest n hm ht
  cases (execMotorRun_inGrid h s).symm.trans ht
  rw [← issuePack_written row col s]
  exact transact_written_of_meets (by simp) _ _ (hm.issuePack row col)

theorem sendsRequest_motorPairRun {row c1 c2 : Byte} (h1 : coordInRange row c1 = true)
    (h2 : coordInRange row c2 = true) :
    SendsRequest (.motorPairRun row c1 c2) Config.idMotor 0x13#8
      [coordByte row c1, coordByte row c2] := by
  intro s t r rest n hm ht
  cases (execMotorPairRun_inGrid h1 h2 s).symm.trans ht
  rw [← issuePack_written row c1 s, ← issuePack_written row c2 (issuePack row c1 s)]
  exact transact_written_of_meets (by simp) _ _ ((hm.issuePack row c1).issuePack row c2)

/-! ### The message read back from a frame -/

/-- The key of a built frame: its id, its length and its command (R84). No data byte is in it. -/
theorem frameKey_frameBytes (c m : Byte) (d : List Byte) :
    frameKey (frameBytes c m d) = (c.setWidth 24 <<< 16) |||
      ((BitVec.ofNat 8 (d.length + 5)).setWidth 24 <<< 8) ||| m.setWidth 24 := rfl

/-- Under the key of MOTOR_RUN the payload byte gives both coordinates. -/
theorem messageOfFrame_motorRunKey {f : List Byte} (hkey : frameKey f = 0x300613#24) :
    messageOfFrame f = if coordValidOf (f.getD 4 0) then
      some (.motorRun ((coordRow (f.getD 4 0)).setWidth 8) ((coordCol (f.getD 4 0)).setWidth 8))
      else none := by
  unfold messageOfFrame
  rw [hkey]
  rfl

/-- Under the key of MOTOR_PAIR_RUN two payload bytes of one row give the row and both columns. -/
theorem messageOfFrame_motorPairRunKey {f : List Byte} (hkey : frameKey f = 0x300713#24) :
    messageOfFrame f = if coordValidOf (f.getD 4 0) && coordValidOf (f.getD 5 0) &&
        highNibble (f.getD 4 0) == highNibble (f.getD 5 0) then
      some (.motorPairRun ((coordRow (f.getD 4 0)).setWidth 8) ((coordCol (f.getD 4 0)).setWidth 8)
        ((coordCol (f.getD 5 0)).setWidth 8))
      else none := by
  unfold messageOfFrame
  rw [hkey]
  rfl

theorem messageOfFrame_motorRun {row col : Byte} (h : coordInRange row col = true) :
    messageOfFrame (frameBytes Config.idMotor 0x13#8 [coordByte row col])
      = some (.motorRun row col) := by
  have hkey : frameKey (frameBytes Config.idMotor 0x13#8 [coordByte row col]) = 0x300613#24 := by
    simp [frameKey_frameBytes]
  have hbyte : (frameBytes Config.idMotor 0x13#8 [coordByte row col]).getD 4 0
      = coordByte row col := rfl
  rw [messageOfFrame_motorRunKey hkey, hbyte, if_pos (coordByte_valid h),
    coordRow_coordByte h, coordCol_coordByte h]

/-- The two coordinate bytes agree in their high nibbles, being of one row. -/
theorem messageOfFrame_motorPairRun {row c1 c2 : Byte} (h1 : coordInRange row c1 = true)
    (h2 : coordInRange row c2 = true) :
    messageOfFrame (frameBytes Config.idMotor 0x13#8 [coordByte row c1, coordByte row c2])
      = some (.motorPairRun row c1 c2) := by
  have hkey : frameKey (frameBytes Config.idMotor 0x13#8 [coordByte row c1, coordByte row c2])
      = 0x300713#24 := by simp [frameKey_frameBytes]
  have hbyte1 : (frameBytes Config.idMotor 0x13#8 [coordByte row c1, coordByte row c2]).getD 4 0
      = coordByte row c1 := rfl
  have hbyte2 : (frameBytes Config.idMotor 0x13#8 [coordByte row c1, coordByte row c2]).getD 5 0
      = coordByte row c2 := rfl
  have hsame : highNibble (coordByte row c1) = highNibble (coordByte row c2) := by
    rw [highNibble_coordByte h1, highNibble_coordByte h2]
  rw [messageOfFrame_motorPairRunKey hkey, hbyte1, hbyte2,
    if_pos (by simp [coordByte_valid h1, coordByte_valid h2, hsame]),
    coordRow_coordByte h1, coordCol_coordByte h1, coordCol_coordByte h2]

theorem messageOfFrame_relayPing (id : BitVec 1) :
    messageOfFrame (frameBytes (Config.idRelay id) 0x00#8 []) = some (.relayPing id) := by
  revert id; decide

theorem messageOfFrame_relayVersion (id : BitVec 1) :
    messageOfFrame (frameBytes (Config.idRelay id) 0x02#8 []) = some (.relayVersion id) := by
  revert id; decide

theorem messageOfFrame_relayReset (id : BitVec 1) :
    messageOfFrame (frameBytes (Config.idRelay id) 0x05#8 []) = some (.relayReset id) := by
  revert id; decide

theorem messageOfFrame_relaySet (id : BitVec 1) (on : Bool) :
    messageOfFrame (frameBytes (Config.idRelay id) 0x11#8 [if on then 0x01#8 else 0x00#8])
      = some (.relaySet id on) := by
  revert id on; decide

/-! ### The two together -/

/-- `i` sends a request that ENCODE can frame, and the frame reads back as `i` itself. -/
def SendsReadableRequest (i : Instr) : Prop :=
  ∃ c m d, d.length ≤ 250 ∧ SendsRequest i c m d ∧ messageOfFrame (frameBytes c m d) = some i

/-- A message whose response is discarded, from its read-back alone. -/
theorem sendsReadableRequest_of_plainMessage {i : Instr} {c m : Byte} {d : List Byte}
    (hd : d.length ≤ 250) (hexec : ∀ s, exec i s = .next (plainMessage c m d s))
    (hread : messageOfFrame (frameBytes c m d) = some i) : SendsReadableRequest i :=
  ⟨c, m, d, hd, sendsRequest_of_plainMessage hd hexec, hread⟩

/-- Every row of R190, its coordinates in the grid. -/
theorem sendsReadableRequest_of_inGridMessage {i : Instr} (hgrid : inGridMessage i = true) :
    SendsReadableRequest i := by
  cases i with
  | relayPing id =>
    exact sendsReadableRequest_of_plainMessage (by simp) (fun _ => rfl)
      (messageOfFrame_relayPing id)
  | relayVersion id =>
    exact ⟨_, _, _, by simp, sendsRequest_of_versionMessage fun _ => rfl,
      messageOfFrame_relayVersion id⟩
  | relayReset id =>
    exact sendsReadableRequest_of_plainMessage (by simp) (fun _ => rfl)
      (messageOfFrame_relayReset id)
  | relaySet id on =>
    exact sendsReadableRequest_of_plainMessage (by simp) (fun _ => rfl)
      (messageOfFrame_relaySet id on)
  | motorPing => exact sendsReadableRequest_of_plainMessage (by simp) (fun _ => rfl) (by decide)
  | motorVersion =>
    exact ⟨_, _, _, by simp, sendsRequest_of_versionMessage fun _ => rfl, by decide⟩
  | motorReset => exact sendsReadableRequest_of_plainMessage (by simp) (fun _ => rfl) (by decide)
  | motorStatus =>
    exact ⟨_, _, _, by simp,
      sendsRequest_of_transact (by simp) (fun _ => rfl) motorStatusOf_written, by decide⟩
  | motorStopAll => exact sendsReadableRequest_of_plainMessage (by simp) (fun _ => rfl) (by decide)
  | motorRun row col =>
    have h : coordInRange row col = true := hgrid
    exact ⟨_, _, _, by simp, sendsRequest_motorRun h, messageOfFrame_motorRun h⟩
  | motorPairRun row c1 c2 =>
    obtain ⟨⟨hrow, h1⟩, h2⟩ : (row.toNat < 8 ∧ c1.toNat < 12) ∧ c2.toNat < 12 := by
      simpa [inGridMessage] using hgrid
    have hfirst := (coordInRange_iff row c1).2 ⟨hrow, h1⟩
    have hsecond := (coordInRange_iff row c2).2 ⟨hrow, h2⟩
    exact ⟨_, _, _, by simp, sendsRequest_motorPairRun hfirst hsecond,
      messageOfFrame_motorPairRun hfirst hsecond⟩
  | motorOptoLineStatus =>
    exact ⟨_, _, _, by simp,
      sendsRequest_of_transact (by simp) (fun _ => rfl) optoLineOf_written, by decide⟩
  | globalReset => exact sendsReadableRequest_of_plainMessage (by simp) (fun _ => rfl) (by decide)
  | _ => cases hgrid

/-- Settles O50: the one frame handed over is the one ENCODE builds of the message's request, so it
is valid, and it reads back as the message. -/
theorem sentFrameReadsBackAsItsMessage : Obligations.SentFrameReadsBackAsItsMessage := by
  intro i s t r rest n hgrid hm ht
  obtain ⟨c, m, d, hd, hsends, hread⟩ := sendsReadableRequest_of_inGridMessage hgrid
  have hwritten := hsends s t r rest n hm ht
  have hvalid := validFrame_frameBytes c m d hd
  exact ⟨fun hr => ⟨frameBytes c m d, hwritten.trans (if_neg hr), hvalid, hread⟩,
    fun hr => hwritten.trans (if_pos hr)⟩

end Sys2Proof.Machine
end

section
/-! SUPPORT. The family of 40_checksum.md: the recurrence and the laws of the fold (R100, R101), what
one replaced byte does to DECODE's checks, and XORFOLD (R102). -/

namespace Sys2Proof.Machine

/-! ### The fold -/

/-- Settles O19: the fold of no bytes, and one more byte folded in. -/
theorem foldIsRunningXor : Obligations.FoldIsRunningXor :=
  fun a => ⟨fold_zero a, fold_succ a⟩

theorem fold_take (a : List Byte) (k : Nat) : fold (a.take k) k = fold a k := by
  rw [fold, List.take_take, Nat.min_self, fold]

/-- The two forms of DECODE's step 5 (R144): the last byte closes the fold of the bytes before it
exactly when all the bytes fold to zero. -/
theorem lastByte_eq_fold_iff {f : List Byte} (hf : 0 < f.length) :
    f.getD (f.length - 1) 0 = fold f (f.length - 1) ↔ fold f f.length = 0x00#8 := by
  have hsucc := fold_succ f (f.length - 1) (Nat.sub_one_lt_of_lt hf)
  rw [Nat.sub_add_cancel hf] at hsucc
  rw [hsucc, BitVec.xor_eq_zero_iff, eq_comm]

/-! ### A replaced byte -/

theorem getD_set_self {l : List Byte} {j : Nat} (v : Byte) (h : j < l.length) :
    (l.set j v).getD j 0 = v := by simp [List.getD, h]

theorem getD_set_ne (l : List Byte) {i j : Nat} (v : Byte) (h : i ≠ j) :
    (l.set i v).getD j 0 = l.getD j 0 := by simp [List.getD, h]

/-- A masked byte moves the fold by the mask, whatever the byte was. -/
theorem fold_set_xor {l : List Byte} {j : Nat} (m : Byte) (h : j < l.length) :
    fold (l.set j (l.getD j 0 ^^^ m)) l.length = fold l l.length ^^^ m := by
  rw [fold_set l j _ h, ← BitVec.xor_assoc (l.getD j 0), BitVec.xor_self, BitVec.zero_xor]

/-- The second mask undoes what the first did to the fold. -/
theorem fold_set_xor_twice {l : List Byte} {i j : Nat} (m : Byte) (hi : i < l.length)
    (hj : j < l.length) (hij : i ≠ j) :
    fold ((l.set i (l.getD i 0 ^^^ m)).set j (l.getD j 0 ^^^ m)) l.length = fold l l.length := by
  have hsecond := fold_set_xor (l := l.set i (l.getD i 0 ^^^ m)) (j := j) m (by simpa using hj)
  rw [getD_set_ne l _ hij, List.length_set] at hsecond
  rw [hsecond, fold_set_xor m hi, BitVec.xor_assoc, BitVec.xor_self, BitVec.xor_zero]

theorem ValidFrame.length_pos {f : List Byte} (hf : ValidFrame f) : 0 < f.length :=
  Nat.lt_of_lt_of_le (by decide) hf.atLeastFive

theorem ValidFrame.fold_set_ne_zero {f : List Byte} (hf : ValidFrame f) {j : Nat} {v : Byte}
    (hj : j < f.length) (hv : v ≠ f.getD j 0) : fold (f.set j v) f.length ≠ 0x00#8 :=
  hf.foldsToZero ▸ fold_set_ne f j v hj hv

/-- One replaced byte fails step 5 of DECODE (R144), the checksum byte itself included. -/
theorem ValidFrame.lastByte_set_ne_fold {f : List Byte} (hf : ValidFrame f) {j : Nat} {v : Byte}
    (hj : j < f.length) (hv : v ≠ f.getD j 0) :
    (f.set j v).getD (f.length - 1) 0 ≠ fold (f.set j v) (f.length - 1) := by
  intro hclosed
  have hpos : 0 < (f.set j v).length := by simpa using hf.length_pos
  have hzero := (lastByte_eq_fold_iff hpos).1 (by simpa using hclosed)
  exact hf.fold_set_ne_zero hj hv (by simpa using hzero)

/-! ### DECODE's ordered checks -/

/-- Past the length check the validated path is the ordered chain of R144. -/
theorem decodeStatus_validated {ctx : Byte} (hc : ctx ≠ 0x00#8) {raw : List Byte}
    (hlen : 5 ≤ raw.length) :
    decodeStatus ctx raw =
      if raw.getD 0 0 ≠ 0x35#8 then statusMalformed
      else if raw.getD 1 0 ≠ ctx then statusInvalidSource
      else if (raw.getD 2 0).toNat ≠ raw.length then statusInvalidLength
      else if raw.getD (raw.length - 1) 0 ≠ fold raw (raw.length - 1) then statusInvalidChecksum
      else statusOk := by
  have hb : ¬ ctx = Config.idBroadcast := hc
  have hshort : ¬ raw.length < Config.minValidatedFrame := Nat.not_lt.2 hlen
  rw [decodeStatus, if_neg hb, if_neg hshort, Config.stx]

/-- Bytes 0 to 2 are caught before the checksum, each by the check that reads it: the checks before
it read bytes left as they were. -/
theorem ValidFrame.decodeStatus_set {f : List Byte} (hf : ValidFrame f) {j : Nat} {v ctx : Byte}
    (hj : j ≤ 2) (hv : v ≠ f.getD j 0) (hc : ctx ≠ 0x00#8) (hctx : ctx = f.getD 1 0) :
    decodeStatus ctx (f.set j v) = if j = 0 then 3#4 else if j = 1 then 4#4 else 5#4 := by
  have hat : (f.set j v).getD j 0 = v :=
    getD_set_self v (Nat.lt_of_le_of_lt hj (Nat.lt_of_lt_of_le (by decide) hf.atLeastFive))
  rw [decodeStatus_validated hc (by simpa using hf.atLeastFive)]
  obtain rfl | rfl | rfl : j = 0 ∨ j = 1 ∨ j = 2 := by omega
  · have hstx : v ≠ 0x35#8 := hf.startsWithStx ▸ hv
    rw [hat, if_pos hstx]; rfl
  · have hsource : v ≠ ctx := hctx ▸ hv
    have hstx : (f.set 1 v).getD 0 0 = 0x35#8 :=
      (getD_set_ne f v (by decide)).trans hf.startsWithStx
    rw [hat, if_neg (not_not.2 hstx), if_pos hsource]; rfl
  · have hlength : v.toNat ≠ (f.set 2 v).length := by
      rw [List.length_set, ← hf.lengthByte]
      exact mt BitVec.eq_of_toNat_eq hv
    have hstx : (f.set 2 v).getD 0 0 = 0x35#8 :=
      (getD_set_ne f v (by decide)).trans hf.startsWithStx
    have hsource : (f.set 2 v).getD 1 0 = ctx :=
      (getD_set_ne f v (by decide)).trans hctx.symm
    rw [hat, if_neg (not_not.2 hstx), if_neg (not_not.2 hsource), if_pos hlength]; rfl

/-- Settles O20: clauses (a) to (c) and (e) are laws of the fold; for (d) a replaced byte moves the
fold of a valid frame away from zero, and DECODE's checks stop at the first one it fails. -/
theorem foldLaws : Obligations.FoldLaws := by
  refine ⟨fun a k hk => (fold_succ a k hk).symm, fun _ _ => fold_perm, ?closed, ?replaced,
    fun _ _ _ m hi hj hij => fold_set_xor_twice m hi hj hij⟩
  case closed =>
    intro f hne hclosed
    exact (lastByte_eq_fold_iff (List.length_pos_iff.2 hne)).1 hclosed
  case replaced =>
    intro f j v hf hj hv
    refine ⟨hf.fold_set_ne_zero hj hv, hf.lastByte_set_ne_fold hj hv, ?_⟩
    intro hle ctx s hc hctx
    exact ⟨_, rfl, (runDecode_status ctx _ s).trans (hf.decodeStatus_set hle hv hc hctx)⟩

/-! ### XORFOLD -/

theorem exec_xorfold (bytes : List Byte) (s : State) :
    exec (.xorfold bytes) s
      = .next { s with csum := fold bytes bytes.length, status := statusOk, done := true } :=
  congrArg Host.Outcome.next (runXorfold_eq bytes s)

theorem fold_singleton (b : Byte) : fold [b] 1 = b := by
  rw [fold_cons_succ, fold_zero, BitVec.xor_zero]

/-- Settles O21: OP 010 samples the received bytes, XORFOLD's meaning is its run, and the corner
cases are folds; a frame without its last byte folds to that byte, as the whole folds to zero. -/
theorem xorfoldFoldsTheReceivedBytes : Obligations.XorfoldFoldsTheReceivedBytes := by
  refine ⟨fun _ => decodeOperation_xorfold, exec_xorfold, fold_zero [], fold_singleton, ?_⟩
  intro f hf
  refine ⟨hf.foldsToZero, ?_⟩
  rw [fold_take]
  exact ((lastByte_eq_fold_iff hf.length_pos).2 hf.foldsToZero).symm

end Sys2Proof.Machine
end

section
/-! SUPPORT. The family of 41_frame_encode.md: the bytes ENCODE leaves in FRAME and the ones it keeps
(R120, R123), what DECODE makes of a frame ENCODE built (R121), and the length limit at a step from a
request (R122). -/

namespace Sys2Proof.Machine

/-! ### What ENCODE leaves in FRAME -/

theorem exec_encode_fits {d : List Byte} (h : d.length ≤ 250) (c m : Byte) (s : State) :
    exec (.encode c m d) s
      = .next { s with frame := Memory.writeBytes s.frame 0 (frameBytes c m d)
                       frameLen := BitVec.ofNat 8 (d.length + 5)
                       csum := frameChecksum c m d, status := statusOk, done := true } :=
  congrArg Host.Outcome.next (runEncode_fits h c m s)

theorem exec_encode_tooLong {d : List Byte} (h : 250 < d.length) (c m : Byte) (s : State) :
    exec (.encode c m d) s
      = .next { s with frameLen := 0, status := statusInvalidLength, done := true } :=
  congrArg Host.Outcome.next (runEncode_tooLong h c m s)

theorem read_writeBytes_frameBytes {d : List Byte} (h : d.length ≤ 250) (c m : Byte) (f : Memory)
    {a : Nat} (ha : a < d.length + 5) :
    Memory.read (Memory.writeBytes f 0 (frameBytes c m d)) a = (frameBytes c m d).getD a 0 :=
  Memory.read_writeBytes_zero (length_frameBytes_le h c m) (by rwa [length_frameBytes]) f

/-- FRAME beyond the frame keeps its bytes (R120, D10; log 21). -/
theorem read_writeBytes_frameBytes_beyond {d : List Byte} (h : d.length ≤ 250) (c m : Byte)
    (f : Memory) {a : Nat} (ha : d.length + 5 ≤ a) :
    Memory.read (Memory.writeBytes f 0 (frameBytes c m d)) a = Memory.read f a := by
  have hfit := (Nat.zero_add _).trans_le (length_frameBytes_le h c m)
  have hout : ¬ (0 ≤ a ∧ a < 0 + (frameBytes c m d).length) := by
    rw [length_frameBytes]; omega
  rw [Memory.read_writeBytes _ f 0 a hfit, if_neg hout]

theorem bytes_writeBytes_frameBytes {d : List Byte} (h : d.length ≤ 250) (c m : Byte) (f : Memory) :
    Memory.bytes (Memory.writeBytes f 0 (frameBytes c m d)) (d.length + 5) = frameBytes c m d := by
  rw [← length_frameBytes c m d]
  exact Memory.bytes_writeBytes f _ (length_frameBytes_le h c m)

/-- The fold of a buffer's first `k` bytes does not see how many more are listed. -/
theorem fold_bytes_of_le (f : Memory) {k n : Nat} (h : k ≤ n) :
    fold (Memory.bytes f k) k = fold (Memory.bytes f n) k := by
  have hprefix : (Memory.bytes f n).take k = Memory.bytes f k := by
    rw [Memory.bytes, ← List.map_take, List.take_range, Nat.min_eq_left h, Memory.bytes]
  rw [← hprefix, fold_take]

/-- R120: the checksum byte in FRAME closes the fold of the bytes before it. -/
theorem fold_writeBytes_frameBytes {d : List Byte} (h : d.length ≤ 250) (c m : Byte) (f : Memory) :
    fold (Memory.bytes (Memory.writeBytes f 0 (frameBytes c m d)) (d.length + 4)) (d.length + 4)
      = frameChecksum c m d := by
  rw [fold_bytes_of_le _ (Nat.le_succ (d.length + 4)), bytes_writeBytes_frameBytes h,
    frameChecksum_eq]

/-- Settles O22: FRAME holds the frame's bytes, each read by its place, and the length limit is
ENCODE's only check. -/
theorem encodeBuildsTheFrame : Obligations.EncodeBuildsTheFrame := by
  refine ⟨fun _ => decodeOperation_encode, ?fits, fun s c m d h => exec_encode_tooLong h c m s⟩
  intro s c m d h
  have hread {a : Nat} (ha : a < d.length + 5) := read_writeBytes_frameBytes h c m s.frame ha
  have hsum := (hread (Nat.lt_succ_self _)).trans (frameBytes_last c m d)
  refine ⟨_, exec_encode_fits h c m s, rfl, hread (by omega), hread (by omega), hread (by omega),
    hread (by omega), ?data, ?sum, hsum.symm,
    fun a ha => read_writeBytes_frameBytes_beyond h c m s.frame ha⟩
  case data => exact fun i hi => (hread (by omega)).trans (frameBytes_data c m d hi)
  case sum => exact hsum.trans (fold_writeBytes_frameBytes h c m s.frame).symm

/-! ### The length limit at a step -/

/-- A raised REQ with no call beside it asks for the operation on the ports. -/
theorem fetch_operation {s : State} (hreq : s.req = true) (hcall : s.call = none) :
    fetch s = .word (.operation s.ports) := by simp [fetch, hreq, hcall]

theorem step_operation {s : State} (hrst : s.rst = false) (hfl : s.inFlight = none)
    (hcall : s.call = none) (hreq : s.req = true) :
    step s = exec (decodeOperation s.ports) (accept s) :=
  step_word hrst hfl (fetch_operation hreq hcall) rfl

/-- Taking an operation's request with nothing else pending only lowers REQ. -/
theorem accept_operation {s : State} (hfl : s.inFlight = none) (hcall : s.call = none) :
    accept s = { s with req := false } := by
  cases s; cases hfl; cases hcall; rfl

/-- Settles O23: the step runs ENCODE on the `DLEN` sampled bytes, which are too many. -/
theorem overlongEncodeWritesNoFrame : Obligations.OverlongEncodeWritesNoFrame := by
  intro s hrst hfl hcall hreq hop hlen
  have hlong : 250 < (portData s.ports).length := by rwa [length_portData]
  refine ⟨{ s with req := false, frameLen := 0, status := statusInvalidLength, done := true },
    ?_, rfl⟩
  calc step s
      = exec (decodeOperation s.ports) (accept s) := step_operation hrst hfl hcall hreq
    _ = exec (.encode s.ports.ctrlId s.ports.cmd (portData s.ports)) { s with req := false } := by
        rw [decodeOperation_encode hop, accept_operation hfl hcall]
    _ = _ := exec_encode_tooLong hlong _ _ _

/-! ### DECODE of a frame ENCODE built -/

theorem toNat_frameLength {d : List Byte} (h : d.length ≤ 250) :
    (BitVec.ofNat 8 (d.length + 5)).toNat = d.length + 5 :=
  Nat.mod_eq_of_lt (by omega)

theorem exec_decode_ok {ctx : Byte} {raw : List Byte} (h : decodeStatus ctx raw = statusOk)
    (s : State) :
    exec (.decode ctx raw) s
      = .next { s with resp := Memory.writeBytes s.resp 0 (decodePayload ctx raw)
                       respLen := BitVec.ofNat 8 (decodePayload ctx raw).length
                       status := statusOk, done := true } :=
  congrArg Host.Outcome.next (runDecode_ok h s)

/-- On either path DECODE accepts a built frame: the validated path by its checks, the broadcast
path because the frame is not empty. -/
theorem decodeStatus_frameBytes_any (c m : Byte) {d : List Byte} (h : d.length ≤ 250) :
    decodeStatus c (frameBytes c m d) = statusOk := by
  by_cases hc : c = 0x00#8
  · subst hc
    rw [decodeStatus_broadcast, if_neg (by simp)]
  · exact decodeStatus_frameBytes hc m h

theorem decodePayload_broadcast (raw : List Byte) : decodePayload 0x00#8 raw = raw := rfl

/-- The validated path cuts the header and the checksum off: the command and the data are left. -/
theorem decodePayload_frameBytes {c : Byte} (hc : c ≠ 0x00#8) (m : Byte) {d : List Byte}
    (h : d.length ≤ 250) : decodePayload c (frameBytes c m d) = m :: d := by
  have hb : ¬ c = Config.idBroadcast := hc
  have hdrop : (frameBytes c m d).drop 3 = (m :: d) ++ [frameChecksum c m d] := rfl
  rw [decodePayload, if_neg hb, frameBytes_two, toNat_frameLength h, hdrop]
  exact List.take_left' rfl

/-- Settles O24: the bytes read back from FRAME are the frame built, which folds to zero and which
DECODE accepts; its payload is the message, or the whole frame for the broadcast id. -/
theorem encodedFrameDecodesToItsMessage : Obligations.EncodedFrameDecodesToItsMessage := by
  intro s c m d h
  have hlen := toNat_frameLength h
  have hbytes := bytes_writeBytes_frameBytes h c m s.frame
  refine ⟨_, exec_encode_fits h c m s, read_writeBytes_frameBytes h c m s.frame (by omega), hlen,
    ?folds, ?decodes⟩
  case folds =>
    dsimp only
    rw [hlen, hbytes, fold_frameBytes]
  case decodes =>
    intro r
    dsimp only
    rw [hlen, hbytes]
    refine ⟨_, exec_decode_ok (decodeStatus_frameBytes_any c m h) r, rfl, ?message, ?broadcast⟩
    case message =>
      intro hc
      dsimp only
      rw [decodePayload_frameBytes hc m h]
      have hfit : (m :: d).length ≤ Config.bufSize := by
        rw [List.length_cons, Config.bufSize]; omega
      have hread {a : Nat} (ha : a < d.length + 1) :=
        Memory.read_writeBytes_zero hfit (a := a) ha r.resp
      refine ⟨hread (by omega), Nat.mod_eq_of_lt (by rw [List.length_cons]; omega), ?_⟩
      intro i hi
      rw [hread (by omega), Nat.add_comm, List.getD_cons_succ]
    case broadcast =>
      rintro rfl
      dsimp only
      rw [decodePayload_broadcast, length_frameBytes, hlen]
      exact ⟨rfl, bytes_writeBytes_frameBytes h 0x00#8 m r.resp⟩

end Sys2Proof.Machine
end

section
/-! SUPPORT. The family of 42_frame_decode.md: what a DECODE that succeeds leaves in RESP and RESP_LEN
(R142, R145), what one that fails leaves (R146), the code it reports (R143, R144), and the code for an
accepted frame with one byte replaced (R148). -/

namespace Sys2Proof.Machine

/-! ### What DECODE leaves in RESP and RESP_LEN -/

/-- The companion of `Memory.read_writeBytes_zero`: beyond the run the buffer keeps its bytes. -/
theorem Memory.read_writeBytes_zero_beyond {l : List Byte} (hl : l.length ≤ Config.bufSize) {a : Nat}
    (ha : l.length ≤ a) (m : Memory) :
    Memory.read (Memory.writeBytes m 0 l) a = Memory.read m a := by
  rw [Memory.read_writeBytes l m 0 a (by omega), if_neg (by omega)]

/-- Success or failure, DECODE writes no other field than these (R140). -/
theorem runDecode_frame (ctx : Byte) (raw : List Byte) (s : State) :
    runDecode ctx raw s = { s with resp := (runDecode ctx raw s).resp
                                   respLen := (runDecode ctx raw s).respLen
                                   status := (runDecode ctx raw s).status
                                   draws := (runDecode ctx raw s).draws, done := true } := by
  by_cases h : decodeStatus ctx raw = statusOk
  · rw [runDecode_ok h]
  · rw [runDecode_fails h]

theorem runDecode_respLen_of_fails {ctx : Byte} {raw : List Byte}
    (h : decodeStatus ctx raw ≠ statusOk) (s : State) : (runDecode ctx raw s).respLen = 0#8 := by
  rw [runDecode_fails h]; rfl

theorem runDecode_draws_of_ok {ctx : Byte} {raw : List Byte} (h : decodeStatus ctx raw = statusOk)
    (s : State) : (runDecode ctx raw s).draws = s.draws := by
  rw [runDecode_ok h]

section Succeeds

variable {ctx : Byte} {raw : List Byte} (hok : decodeStatus ctx raw = statusOk)
  (hr : raw.length ≤ 255) (s : State)
include hok hr

/-- A payload that fits RESP is counted in full. -/
theorem runDecode_respLen_toNat :
    (runDecode ctx raw s).respLen.toNat = (decodePayload ctx raw).length := by
  rw [runDecode_ok hok]
  exact Nat.mod_eq_of_lt (Nat.lt_succ_of_le (length_decodePayload_le hr))

theorem read_runDecode_resp {a : Nat} (ha : a < (decodePayload ctx raw).length) :
    Memory.read (runDecode ctx raw s).resp a = (decodePayload ctx raw).getD a 0 := by
  rw [runDecode_ok hok]
  exact Memory.read_writeBytes_zero (length_decodePayload_le hr) ha s.resp

/-- RESP beyond the payload keeps its bytes (R140, D10; log 21). -/
theorem read_runDecode_resp_beyond {a : Nat} (ha : (decodePayload ctx raw).length ≤ a) :
    Memory.read (runDecode ctx raw s).resp a = Memory.read s.resp a := by
  rw [runDecode_ok hok]
  exact Memory.read_writeBytes_zero_beyond (length_decodePayload_le hr) ha s.resp

variable (hc : ctx ≠ 0x00#8)
include hc

theorem runDecode_respLen_validated :
    (runDecode ctx raw s).respLen.toNat = raw.length - 4 :=
  (runDecode_respLen_toNat hok hr s).trans (length_decodePayload hc hok)

theorem read_runDecode_resp_validated {i : Nat} (hi : i < raw.length - 4) :
    Memory.read (runDecode ctx raw s).resp i = raw.getD (3 + i) 0 := by
  have hlt : i < (decodePayload ctx raw).length := by rwa [length_decodePayload hc hok]
  exact (read_runDecode_resp hok hr s hlt).trans (getD_decodePayload hc hok hi)

theorem read_runDecode_resp_validated_beyond {a : Nat} (ha : raw.length - 4 ≤ a) :
    Memory.read (runDecode ctx raw s).resp a = Memory.read s.resp a :=
  read_runDecode_resp_beyond hok hr s (by rwa [length_decodePayload hc hok])

end Succeeds

/-! ### The code DECODE reports -/

theorem decodeStatus_broadcast_nil : decodeStatus 0x00#8 [] = statusInvalidLength := rfl

theorem decodeStatus_broadcast_ok {raw : List Byte} (h : raw ≠ []) :
    decodeStatus 0x00#8 raw = statusOk := by
  rw [decodeStatus_broadcast, if_neg (mt List.length_eq_zero_iff.1 h)]

/-- The length check of the validated path comes before any check of a byte. -/
theorem decodeStatus_short {ctx : Byte} (hc : ctx ≠ 0x00#8) {raw : List Byte}
    (hlen : raw.length < 5) : decodeStatus ctx raw = statusInvalidLength := by
  have hb : ¬ ctx = Config.idBroadcast := hc
  have hshort : raw.length < Config.minValidatedFrame := hlen
  rw [decodeStatus, if_neg hb, if_pos hshort]

/-- The validated path accepts exactly the valid frames that come from the context's controller. -/
theorem decodeStatus_ok_iff_validFrame {ctx : Byte} (hc : ctx ≠ 0x00#8) (raw : List Byte) :
    decodeStatus ctx raw = statusOk ↔ ValidFrame raw ∧ raw.getD 1 0 = ctx := by
  rw [decodeStatus_validated_ok hc]
  constructor
  · rintro ⟨h5, hstx, hsource, hlength, hsum⟩
    have hle : raw.length ≤ 255 := hlength ▸ Nat.le_of_lt_succ (raw.getD 2 0).isLt
    exact ⟨⟨h5, hle, hstx, hlength, (lastByte_eq_fold_iff (by omega)).1 hsum⟩, hsource⟩
  · rintro ⟨hf, hsource⟩
    exact ⟨hf.atLeastFive, hf.startsWithStx, hsource, hf.lengthByte,
      (lastByte_eq_fold_iff hf.length_pos).2 hf.foldsToZero⟩

/-! ### The two paths -/

/-- Settles O26: the length check alone decides. -/
theorem shortBufferIsInvalidLength : Obligations.ShortBufferIsInvalidLength := by
  intro s ctx raw hc hlen
  have hcode := decodeStatus_short hc hlen
  have hfails : decodeStatus ctx raw ≠ statusOk := hcode ▸ by decide
  exact ⟨_, rfl, (runDecode_status ctx raw s).trans hcode, runDecode_respLen_of_fails hfails s⟩

/-- Settles O25: the broadcast path fails on the empty buffer alone, and its payload is the buffer. -/
theorem broadcastDecodeReturnsWholeBuffer : Obligations.BroadcastDecodeReturnsWholeBuffer := by
  intro s raw hr
  refine ⟨_, rfl, runDecode_frame 0x00#8 raw s, ?empty, ?received⟩
  case empty =>
    rintro rfl
    exact ⟨runDecode_status 0x00#8 [] s, runDecode_respLen_of_fails (by decide) s⟩
  case received =>
    intro hne
    have hok := decodeStatus_broadcast_ok hne
    exact ⟨(runDecode_status 0x00#8 raw s).trans hok, runDecode_respLen_toNat hok hr s,
      runDecode_draws_of_ok hok s, fun _ hi => read_runDecode_resp hok hr s hi,
      fun _ ha => read_runDecode_resp_beyond hok hr s ha⟩

/-- Settles O27: STATUS is the ordered chain of checks, and what RESP and RESP_LEN show follows from
it; that all the checks pass makes the length byte count the buffer. -/
theorem validatedChecksDecideTheCodeInOrder : Obligations.ValidatedChecksDecideTheCodeInOrder := by
  intro s ctx raw hc h5 hr
  have hstatus := runDecode_status ctx raw s
  refine ⟨lastByte_eq_fold_iff (by omega), _, rfl, hstatus.trans (decodeStatus_validated hc h5),
    ?fails, ?passes⟩
  case fails =>
    intro hcode
    exact runDecode_respLen_of_fails (fun hok => hcode (hstatus.trans hok)) s
  case passes =>
    intro hcode
    have hok : decodeStatus ctx raw = statusOk := hstatus.symm.trans hcode
    have hframe := ((decodeStatus_ok_iff_validFrame hc raw).1 hok).1
    have hlen := runDecode_respLen_validated hok hr s hc
    exact ⟨congrArg (· - 4) hframe.lengthByte, hlen ▸ (by omega), hlen,
      fun _ hi => read_runDecode_resp_validated hok hr s hc hi⟩

/-- Settles O28: such a buffer is a valid frame from the context's controller, so DECODE accepts it. -/
theorem validatedDecodeExtractsPayload : Obligations.ValidatedDecodeExtractsPayload := by
  intro s ctx raw hc h5 hr hstx hsource hlength hzero
  have hok := (decodeStatus_ok_iff_validFrame hc raw).2 ⟨⟨h5, hr, hstx, hlength, hzero⟩, hsource⟩
  refine ⟨_, rfl, ?_, runDecode_respLen_validated hok hr s hc,
    fun _ hi => read_runDecode_resp_validated hok hr s hc hi,
    fun _ ha => read_runDecode_resp_validated_beyond hok hr s hc ha⟩
  exact (runDecode_ok hok s).trans (by rw [runDecode_ok hok]; rfl)

/-- Settles O29: a code other than OK in STATUS means that the checks failed, and the failing run
writes these fields alone. -/
theorem failedDecodeReportsNothing : Obligations.FailedDecodeReportsNothing := by
  intro s t ctx raw ht hcode
  cases ht
  have hfails : decodeStatus ctx raw ≠ statusOk := by rwa [runDecode_status] at hcode
  rw [runDecode_fails hfails]
  exact ⟨rfl, rfl⟩

/-! ### One byte of an accepted frame replaced -/

/-- A frame that differs in one byte from a valid one fails the checksum check at the latest. -/
theorem ValidFrame.decodeStatus_set_ne_ok {f : List Byte} (hf : ValidFrame f) {j : Nat} {v ctx : Byte}
    (hj : j < f.length) (hv : v ≠ f.getD j 0) (hc : ctx ≠ 0x00#8) :
    decodeStatus ctx (f.set j v) ≠ statusOk := by
  intro hok
  obtain ⟨-, -, -, -, hsum⟩ := (decodeStatus_validated_ok hc _).1 hok
  rw [List.length_set] at hsum
  exact hf.lastByte_set_ne_fold hj hv hsum

/-- Past the three bytes that have a check of their own only the checksum check reads the byte. -/
theorem ValidFrame.decodeStatus_set_beyond_header {f : List Byte} (hf : ValidFrame f) {j : Nat}
    {v ctx : Byte} (hj : j < f.length) (h3 : 3 ≤ j) (hv : v ≠ f.getD j 0) (hc : ctx ≠ 0x00#8)
    (hctx : f.getD 1 0 = ctx) : decodeStatus ctx (f.set j v) = statusInvalidChecksum := by
  have hkept {i : Nat} (hi : i < 3) : (f.set j v).getD i 0 = f.getD i 0 :=
    getD_set_ne f v (by omega)
  rw [decodeStatus_validated hc (by simpa using hf.atLeastFive), List.length_set,
    hkept (by decide), hkept (by decide), hkept (by decide),
    if_neg (not_not.2 hf.startsWithStx), if_neg (not_not.2 hctx), if_neg (not_not.2 hf.lengthByte),
    if_pos (hf.lastByte_set_ne_fold hj hv)]

/-- Settles O30: an accepted frame is valid, so the check that reads the replaced byte is the first
to fail; which one that is does not depend on the state. -/
theorem tamperedFrameIsRejectedByItsByte : Obligations.TamperedFrameIsRejectedByItsByte := by
  intro s u ctx f hc hexec hcode j v r hj hv
  cases hexec
  obtain ⟨hf, hctx⟩ : ValidFrame f ∧ f.getD 1 0 = ctx :=
    (decodeStatus_ok_iff_validFrame hc f).1 (by rwa [runDecode_status] at hcode)
  refine ⟨_, rfl, runDecode_respLen_of_fails (hf.decodeStatus_set_ne_ok hj hv hc) r,
    (runDecode_status ctx _ r).trans ?_⟩
  rcases Nat.lt_or_ge 2 j with hbeyond | hheader
  · rw [hf.decodeStatus_set_beyond_header hj hbeyond hv hc hctx, if_neg (by omega),
      if_neg (by omega), if_neg (by omega)]
    rfl
  · rw [hf.decodeStatus_set hheader hv hc hctx.symm]
    have hplace : j = 0 ∨ j = 1 ∨ j = 2 := by omega
    rcases hplace with rfl | rfl | rfl <;> rfl

end Sys2Proof.Machine
end

section
/-! SUPPORT. The family of 43_coordinate.md: PACK inside and outside the grid (R170, R171), the
nibbles of the byte it answers (R172), UNPACK's fields by the byte's number (R175), and the round
trips between the two (R177). -/

namespace Sys2Proof.Machine

/-! ### PACK -/

/-- The companion of `coordInRange_iff`: a coordinate outside the grid is too large somewhere. -/
theorem coordInRange_eq_false_iff (row col : Byte) :
    coordInRange row col = false ↔ 8 ≤ row.toNat ∨ 12 ≤ col.toNat := by
  rw [← Bool.not_eq_true, coordInRange_iff, not_and_or, Nat.not_lt, Nat.not_lt]

theorem coordInRange_of_le {row col : Byte} (hrow : row.toNat ≤ 7) (hcol : col.toNat ≤ 11) :
    coordInRange row col = true :=
  (coordInRange_iff row col).2 ⟨Nat.lt_succ_of_le hrow, Nat.lt_succ_of_le hcol⟩

theorem exec_pack_inRange {row col : Byte} (h : coordInRange row col = true) (s : State) :
    exec (.pack row col) s
      = .next { s with coord := coordByte row col, status := statusOk, done := true } :=
  congrArg Host.Outcome.next (runPack_inRange h s)

theorem exec_pack_outOfRange {row col : Byte} (h : coordInRange row col = false) (s : State) :
    exec (.pack row col) s
      = .next { s with coord := 0x00#8, status := statusInvalidMotorCoordinates, done := true } :=
  congrArg Host.Outcome.next (runPack_outOfRange h s)

/-- Settles O32: the range check decides between PACK's two runs. -/
theorem packEncodesOrRejectsCoordinate : Obligations.PackEncodesOrRejectsCoordinate :=
  ⟨fun _ => decodeOperation_pack,
    fun row col s h => exec_pack_inRange ((coordInRange_iff row col).2 h) s,
    fun row col s h => exec_pack_outOfRange ((coordInRange_eq_false_iff row col).2 h) s⟩

/-! ### The nibbles of a packed byte -/

/-- Inside the grid the shifted row leaves the low nibble free, and the column fits there. -/
theorem packedRow_and_packedCol {row col : Byte} (h : coordInRange row col = true) :
    ((row + 1#8) <<< 4) &&& (col + 1#8) = 0#8 :=
  forall_grid (P := fun row col => ((row + 1#8) <<< 4) &&& (col + 1#8) = 0#8) (by decide) h

/-- Settles O33: each nibble is a 4-bit increment, and two halves without a common bit add without
a carry. -/
theorem packedNibblesDoNotCarry : Obligations.PackedNibblesDoNotCarry := by
  intro row col s hrow hcol
  have hin := coordInRange_of_le hrow hcol
  refine ⟨_, exec_pack_inRange hin s, Nat.succ_le_succ hrow, Nat.succ_le_succ hcol, ?high, ?low,
    (BitVec.add_eq_or_of_and_eq_zero _ _ (packedRow_and_packedCol hin)).symm⟩
  case high =>
    exact (congrArg BitVec.toNat (highNibble_coordByte hin)).trans (BitVec.toNat_add ..)
  case low =>
    exact (congrArg BitVec.toNat (lowNibble_coordByte hin)).trans (BitVec.toNat_add ..)

/-! ### UNPACK -/

theorem exec_unpack (b : Byte) (s : State) :
    exec (.unpack b) s
      = .next { s with rowOut := coordRow b, colOut := coordCol b, coordValid := coordValidOf b
                       status := statusOk, done := true } :=
  congrArg Host.Outcome.next (runUnpack_eq b s)

theorem toNat_highNibble (b : Byte) : (highNibble b).toNat = b.toNat / 16 := by
  have hb := b.isLt
  rw [highNibble, BitVec.extractLsb'_toNat, Nat.shiftRight_eq_div_pow]
  omega

theorem toNat_lowNibble (b : Byte) : (lowNibble b).toNat = b.toNat % 16 :=
  BitVec.extractLsb'_toNat ..

/-- COORD_VALID by the byte's number. -/
theorem coordValidOf_eq (b : Byte) :
    coordValidOf b = decide ((1 ≤ b.toNat / 16 ∧ b.toNat / 16 ≤ 8) ∧
      (1 ≤ b.toNat % 16 ∧ b.toNat % 16 ≤ 12)) := by
  rw [coordValidOf, toNat_highNibble, toNat_lowNibble, Bool.decide_and, Bool.decide_and,
    Bool.decide_and, ← Bool.and_assoc]

/-- Settles O34: UNPACK's fields are the byte's two nibbles less one, and its validity by number. -/
theorem unpackSplitsTheByte : Obligations.UnpackSplitsTheByte := by
  refine ⟨fun _ => decodeOperation_unpack, fun b s => ?_⟩
  rw [exec_unpack, coordValidOf_eq]
  rfl

/-! ### The round trips -/

theorem toNat_coordRow_coordByte {row col : Byte} (h : coordInRange row col = true) :
    (coordRow (coordByte row col)).toNat = row.toNat := by
  rw [← BitVec.toNat_setWidth_of_le (w' := 8) (by decide), coordRow_coordByte h]

theorem toNat_coordCol_coordByte {row col : Byte} (h : coordInRange row col = true) :
    (coordCol (coordByte row col)).toNat = col.toNat := by
  rw [← BitVec.toNat_setWidth_of_le (w' := 8) (by decide), coordCol_coordByte h]

/-- The byte of a failed PACK names no motor. -/
theorem not_coordValidOf_zero : ¬ coordValidOf 0x00#8 = true := by decide

/-- Settles O35: inside the grid the packed byte is valid and splits into its coordinate, a valid
byte splits into a coordinate that packs to it, and a failed PACK leaves the invalid byte zero. -/
theorem coordinateRoundTrips : Obligations.CoordinateRoundTrips := by
  refine ⟨?unpackPack, ?packUnpack, ?succeeds⟩
  case unpackPack =>
    intro row col s hrow hcol
    have hin := coordInRange_of_le hrow hcol
    exact ⟨_, _, exec_pack_inRange hin s, exec_unpack .., toNat_coordRow_coordByte hin,
      toNat_coordCol_coordByte hin, coordByte_valid hin⟩
  case packUnpack =>
    intro b s u hexec hvalid
    cases hexec
    obtain ⟨hin, hbyte⟩ := coordInRange_of_valid hvalid
    exact ⟨_, exec_pack_inRange hin _, rfl, hbyte⟩
  case succeeds =>
    intro row col s
    cases hin : coordInRange row col with
    | true =>
      exact ⟨_, _, exec_pack_inRange hin s, exec_unpack .., iff_of_true rfl (coordByte_valid hin)⟩
    | false =>
      have hfails : statusInvalidMotorCoordinates ≠ statusOk := by decide
      exact ⟨_, _, exec_pack_outOfRange hin s, exec_unpack 0x00#8 _,
        iff_of_false hfails not_coordValidOf_zero⟩

end Sys2Proof.Machine
end

section
/-! SUPPORT. The invariant and the steps: each operation, each part of the message layer's exchange
and each ending of a message keeps `Inv`, so every instruction does, and every step. -/

namespace Sys2Proof.Machine

/-! ### The block operations -/

theorem toNat_statusOk_le : statusOk.toNat ≤ 6 := by decide

theorem toNat_statusInvalidLength_le : statusInvalidLength.toNat ≤ 6 := by decide

theorem toNat_statusInvalidSource_le : statusInvalidSource.toNat ≤ 6 := by decide

theorem toNat_statusInvalidMotorCoordinates_le : statusInvalidMotorCoordinates.toNat ≤ 6 := by
  decide

/-- Every code DECODE reports is one of R230 (I14). -/
theorem toNat_decodeStatus_le (ctx : Byte) (raw : List Byte) :
    (decodeStatus ctx raw).toNat ≤ 6 := by
  rcases decodeStatus_codes ctx raw with h | h | h | h | h <;> rw [h] <;> decide

theorem validFrame_runEncode {d : List Byte} (hd : d.length ≤ 250) (c m : Byte) (s : State) :
    ValidFrame (frameOut (runEncode c m d s)) :=
  (frameOut_runEncode hd c m s).symm ▸ validFrame_frameBytes c m d hd

theorem inv_finish {s : State} (h : Inv s) : Inv (finish s) := { h with }

/-- An ENCODE that is too long leaves the empty frame, and one that fits a valid one. -/
theorem inv_runEncode (c m : Byte) (d : List Byte) {s : State} (h : Inv s) :
    Inv (runEncode c m d s) := by
  rcases Nat.lt_or_ge 250 d.length with hd | hd
  · rw [runEncode_tooLong hd]
    exact { h with statusLegal := toNat_statusInvalidLength_le, frameValid := .inl rfl }
  · have hvalid := validFrame_runEncode hd c m s
    rw [runEncode_fits hd] at hvalid ⊢
    exact { h with
      frameWf := Memory.wf_writeBytes h.frameWf 0 _
      statusLegal := toNat_statusOk_le
      frameValid := .inr hvalid }

theorem inv_runDecode (ctx : Byte) (raw : List Byte) {s : State} (h : Inv s) :
    Inv (runDecode ctx raw s) := by
  by_cases hok : decodeStatus ctx raw = statusOk
  · rw [runDecode_ok hok]
    exact { h with respWf := Memory.wf_writeBytes h.respWf 0 _, statusLegal := toNat_statusOk_le }
  · rw [runDecode_fails hok]
    exact { h with
      respWf := wf_unspecifiedResp s.draws
      statusLegal := toNat_decodeStatus_le ctx raw }

theorem inv_runXorfold (l : List Byte) {s : State} (h : Inv s) : Inv (runXorfold l s) :=
  { h with statusLegal := toNat_statusOk_le }

/-- COORD is left a valid byte, or `0x00` where PACK fails. -/
theorem inv_runPack (row col : Byte) {s : State} (h : Inv s) : Inv (runPack row col s) := by
  cases hin : coordInRange row col with
  | true =>
    rw [runPack_inRange hin]
    exact { h with coordLegal := .inr (coordByte_valid hin), statusLegal := toNat_statusOk_le }
  | false =>
    rw [runPack_outOfRange hin]
    exact { h with coordLegal := .inl rfl, statusLegal := toNat_statusInvalidMotorCoordinates_le }

theorem inv_runUnpack (b : Byte) {s : State} (h : Inv s) : Inv (runUnpack b s) :=
  { h with
    gridLegal := grid_of_valid
    statusLegal := toNat_statusOk_le }

/-! ### The exchange -/

/-- The host may drive the ports as it likes, as long as the input arrays stay canonical. -/
theorem inv_setPorts {s : State} (h : Inv s) {p : Ports} (hdata : Memory.wf p.dataIn = true)
    (hrx : Memory.wf p.rxIn = true) : Inv { s with ports := p } :=
  { h with dataInWf := hdata, rxInWf := hrx }

theorem inv_issueEncode (c m : Byte) (d : List Byte) {s : State} (h : Inv s) :
    Inv (issueEncode c m d s) :=
  inv_runEncode c m d (inv_setPorts h (Memory.wf_writeBytes h.dataInWf 0 d) h.rxInWf)

theorem inv_issueDecode (ctx : Byte) {s : State} (h : Inv s) : Inv (issueDecode ctx s) :=
  inv_runDecode ctx _ (inv_setPorts h h.dataInWf h.rxInWf)

theorem inv_issuePack (row col : Byte) {s : State} (h : Inv s) : Inv (issuePack row col s) :=
  inv_runPack row col (inv_setPorts h h.dataInWf h.rxInWf)

theorem inv_issueUnpack (b : Byte) {s : State} (h : Inv s) : Inv (issueUnpack b s) :=
  inv_runUnpack b (inv_setPorts h h.dataInWf h.rxInWf)

theorem inv_unpackAll (l : List Byte) {s : State} (h : Inv s) : Inv (unpackAll l s).2 := by
  induction l generalizing s with
  | nil => exact h
  | cons b bs ih => exact ih (inv_issueUnpack b h)

/-- Taking a reply leaves FRAME and the invariant alone. -/
theorem inv_nextReply {s : State} (h : Inv s) :
    Inv (nextReply s).2 ∧ frameOut (nextReply s).2 = frameOut s := by
  rcases nextReply_cases s with ⟨r, rest, _, hnext⟩ | ⟨_, hnext⟩ <;> rw [hnext]
  · exact ⟨{ h with }, rfl⟩
  · exact ⟨{ h with }, rfl⟩

/-- Handing over a valid frame. -/
theorem inv_writeOut {s : State} (h : Inv s) (hframe : ValidFrame (frameOut s)) :
    Inv (writeOut s) :=
  { h with
    writtenValid := by
      intro f hf
      rcases List.mem_append.1 hf with hold | hnew
      · exact h.writtenValid f hold
      · exact List.mem_singleton.1 hnew ▸ hframe }

theorem inv_exchange {s : State} (h : Inv s) (hframe : ValidFrame (frameOut s)) :
    Inv (exchange s).1 := by
  obtain ⟨hnext, hout⟩ := inv_nextReply h
  have hwrite := inv_writeOut hnext (hout.symm ▸ hframe)
  rcases exchange_cases s with ⟨raw, _, hx⟩ | ⟨_, hx⟩ | ⟨_, hx⟩ | ⟨_, hx⟩ <;> rw [hx]
  · exact inv_setPorts hwrite hwrite.dataInWf (Memory.wf_writeBytes hwrite.rxInWf 0 _)
  · exact hnext
  · exact hwrite
  · exact hwrite

/-- A request keeps the invariant: the frame it hands over is the one its ENCODE built. -/
theorem inv_transact {d : List Byte} (hd : d.length ≤ 250) (c m : Byte) {s : State} (h : Inv s) :
    Inv (transact c m d s).1 := by
  have hx := inv_exchange (inv_issueEncode c m d h) (validFrame_runEncode hd c m _)
  rw [transact_eq hd]
  split
  · exact inv_issueDecode c hx
  · exact hx

/-! ### The endings of the messages -/

/-- An error kind that is no reserved STATUS value (R230, I14). -/
def LegalKind (k : ErrorKind) : Prop := ∀ code, k = .status code → code.toNat ≤ 6

theorem legalKind_status {code : Nibble} (h : code.toNat ≤ 6) : LegalKind (.status code) := by
  rintro _ ⟨⟩; exact h

theorem legalKind_packFailed : LegalKind (.status statusInvalidMotorCoordinates) :=
  legalKind_status toNat_statusInvalidMotorCoordinates_le

theorem legalKind_transact {d : List Byte} (hd : d.length ≤ 250) (c m : Byte) (s : State) :
    LegalKind (transact c m d s).2 := by
  obtain ⟨_, _, hle, _, hstatus⟩ := transact_ends hd c m s
  intro code hcode
  rw [hstatus code hcode]; exact hle

theorem toNat_currentOf (b : Byte) : (BitVec.ofNat 16 (currentOf b)).toNat = currentOf b := by
  have hle : currentOf b ≤ 500 := Nat.min_le_right _ _
  rw [BitVec.toNat_ofNat, Nat.mod_eq_of_lt (by omega)]

section Endings

variable {x : State × ErrorKind} (h : Inv x.1) (hk : LegalKind x.2)
include h hk

theorem inv_endCall : Inv (endCall x) := { h with apiStatusLegal := hk }

theorem inv_versionOf : Inv (versionOf x) := by
  by_cases hok : x.2 = kindOk
  · rw [versionOf_ok hok]; exact { inv_endCall h hk with }
  · rw [versionOf_fails hok]; exact { inv_endCall h hk with }

theorem inv_motorStatusOf : Inv (motorStatusOf x) := by
  have hzero : (0#16).toNat ≤ 500 := by decide
  rcases motorStatusOf_cases x with ⟨_, e⟩ | ⟨_, _, e⟩ | ⟨_, _, _, e⟩ | ⟨_, _, _, e⟩ <;> rw [e]
  · exact { h with apiStatusLegal := hk, currentLegal := hzero }
  · exact { h with
      apiStatusLegal := legalKind_status toNat_statusInvalidLength_le
      currentLegal := hzero }
  · exact { h with
      apiStatusLegal := legalKind_status toNat_statusInvalidSource_le
      currentLegal := hzero }
  · have hcurrent := (toNat_currentOf ((respOut x.1).getD 1 0)).trans_le (Nat.min_le_right _ _)
    exact { inv_unpackAll ((respOut x.1).drop 2) h with
      apiStatusLegal := legalKind_status toNat_statusOk_le
      currentLegal := hcurrent }

theorem inv_optoLineOf : Inv (optoLineOf x) := by
  rcases optoLineOf_cases x with ⟨_, e⟩ | ⟨_, _, e⟩ | ⟨_, _, e⟩ <;> rw [e]
  · exact { h with apiStatusLegal := hk }
  · exact { h with apiStatusLegal := legalKind_status toNat_statusInvalidLength_le }
  · exact { h with apiStatusLegal := legalKind_status toNat_statusOk_le }

end Endings

/-! ### Every instruction and every step -/

theorem inv_plainMessage {d : List Byte} (hd : d.length ≤ 250) (c m : Byte) {s : State}
    (h : Inv s) : Inv (plainMessage c m d s) :=
  inv_endCall (inv_transact hd c m h) (legalKind_transact hd c m s)

theorem inv_versionMessage (c : Byte) {s : State} (h : Inv s) : Inv (versionMessage c s) :=
  inv_versionOf (inv_transact (by simp) c _ h) (legalKind_transact (by simp) c _ s)

theorem inv_execMotorRun (row col : Byte) {s t : State} (h : Inv s)
    (ht : execMotorRun row col s = .next t) : Inv t := by
  have hpack := inv_issuePack row col h
  cases hin : coordInRange row col with
  | true =>
    cases (execMotorRun_inGrid hin s).symm.trans ht
    exact inv_plainMessage (by simp) _ _ hpack
  | false =>
    cases (execMotorRun_outside hin s).symm.trans ht
    exact { hpack with apiStatusLegal := legalKind_packFailed }

theorem inv_execMotorPairRun (row c1 c2 : Byte) {s t : State} (h : Inv s)
    (ht : execMotorPairRun row c1 c2 s = .next t) : Inv t := by
  have hfirst := inv_issuePack row c1 h
  have hsecond := inv_issuePack row c2 hfirst
  cases hin1 : coordInRange row c1 with
  | false =>
    cases (execMotorPairRun_firstOutside hin1 c2 s).symm.trans ht
    exact { hfirst with apiStatusLegal := legalKind_packFailed }
  | true =>
    cases hin2 : coordInRange row c2 with
    | true =>
      cases (execMotorPairRun_inGrid hin1 hin2 s).symm.trans ht
      exact inv_plainMessage (by simp) _ _ hsecond
    | false =>
      cases (execMotorPairRun_secondOutside hin1 hin2 s).symm.trans ht
      exact { hsecond with apiStatusLegal := legalKind_packFailed }

theorem inv_exec {i : Instr} {s t : State} (h : Inv s) (ht : exec i s = .next t) : Inv t := by
  cases i with
  | encode c m d => cases ht; exact inv_runEncode c m d h
  | decode ctx raw => cases ht; exact inv_runDecode ctx raw h
  | xorfold l => cases ht; exact inv_runXorfold l h
  | pack row col => cases ht; exact inv_runPack row col h
  | unpack b => cases ht; exact inv_runUnpack b h
  | reserved101 => cases ht; exact inv_finish h
  | reserved110 => cases ht; exact inv_finish h
  | reserved111 => cases ht; exact inv_finish h
  | relayPing id => cases ht; exact inv_plainMessage (by simp) _ _ h
  | relayVersion id => cases ht; exact inv_versionMessage _ h
  | relayReset id => cases ht; exact inv_plainMessage (by simp) _ _ h
  | relaySet id on => cases ht; exact inv_plainMessage (by simp) _ _ h
  | motorPing => cases ht; exact inv_plainMessage (by simp) _ _ h
  | motorVersion => cases ht; exact inv_versionMessage _ h
  | motorReset => cases ht; exact inv_plainMessage (by simp) _ _ h
  | motorStatus =>
    cases ht
    exact inv_motorStatusOf (inv_transact (by simp) _ _ h) (legalKind_transact (by simp) _ _ s)
  | motorStopAll => cases ht; exact inv_plainMessage (by simp) _ _ h
  | motorRun row col => exact inv_execMotorRun row col h ht
  | motorPairRun row c1 c2 => exact inv_execMotorPairRun row c1 c2 h ht
  | motorOptoLineStatus =>
    cases ht
    exact inv_optoLineOf (inv_transact (by simp) _ _ h) (legalKind_transact (by simp) _ _ s)
  | globalReset => cases ht; exact inv_plainMessage (by simp) _ _ h

/-- Taking a request drops the operation in progress and nothing else of the invariant. -/
theorem inv_accept {s : State} (h : Inv s) : Inv (accept s) := { h with inFlightWf := nofun }

/-- Reset empties the block's registers; what it leaves alone was legal before (log 11). -/
theorem inv_assertReset {s : State} (h : Inv s) : Inv (assertReset s) :=
  { h with
    frameWf := rfl
    respWf := rfl
    statusLegal := Nat.zero_le 6
    frameValid := .inl rfl
    coordLegal := .inl rfl
    gridLegal := nofun
    inFlightWf := nofun }

/-- Settles O3: a step is a reset, nothing at all, or one instruction run on the state that has
taken the request, and each of the three keeps the invariant. -/
theorem everyStepKeepsInvariant : Obligations.EveryStepKeepsInvariant := by
  intro s t h hstep
  rcases step_next_cases hstep with ⟨_, rfl⟩ | ⟨_, _, _, rfl⟩ | ⟨_, i, hexec, _⟩
  · exact inv_assertReset h
  · exact h
  · exact inv_exec (inv_accept h) hexec

end Sys2Proof.Machine
end

section
/-! SUPPORT. The family of 44_k1_messages.md: the expansion of a message (R60, "Stop on failure")
and its request frames (R191 to R203), what the messages with outputs make of the response (R204 to
R207), and the one exchange of each (R208). -/

namespace Sys2Proof.Machine

/-! ### The expansion -/

/-- ENCODE reads no reply and draws no free value. -/
theorem runEncode_setInputs (c m : Byte) (d : List Byte) (l : List Reply) (n : Nat) (s : State) :
    runEncode c m d { s with replies := l, draws := n }
      = { runEncode c m d s with replies := l, draws := n } := by
  rcases Nat.lt_or_ge 250 d.length with h | h
  · rw [runEncode_tooLong h, runEncode_tooLong h]
  · rw [runEncode_fits h, runEncode_fits h]

/-- DECODE works on bytes already received, so it reads no reply. -/
theorem runDecode_setReplies (ctx : Byte) (raw : List Byte) (l : List Reply) (s : State) :
    runDecode ctx raw { s with replies := l } = { runDecode ctx raw s with replies := l } := by
  by_cases h : decodeStatus ctx raw = statusOk
  · rw [runDecode_ok h, runDecode_ok h]
  · rw [runDecode_fails h, runDecode_fails h]

theorem runEncode_status_of_fits {d : List Byte} (h : d.length ≤ 250) (c m : Byte) (s : State) :
    (runEncode c m d s).status = statusOk := by rw [runEncode_fits h]

/-- The frame counts as handed over once the write is called (log 14), so unless the purge fails. -/
def handedOver : Reply → Bool
  | .purgeFails => false
  | _ => true

section Expansion

variable {d : List Byte} (hd : d.length ≤ 250) (c m : Byte) {s : State} {rest : List Reply}
  {n : Nat}
include hd

/-- A request that meets reply bytes is the whole expansion, and its outcome is DECODE's status. -/
theorem transact_exchanged {raw : List Byte} (hm : Meets s (.bytes raw) rest n) :
    ∃ u, Exchanged c m d (frameBytes c m d) raw rest n s u ∧
      transact c m d s = (u, .status u.status) := by
  refine ⟨_,
    ⟨_, _, rfl, frameOut_runEncode hd c m s, runEncode_status_of_fits hd c m s, rfl, ?after⟩,
    (transact_of_meets hd c m hm).trans (transact_bytes hd c m rfl)⟩
  case after =>
    rw [transacted, runEncode_setInputs]
    exact congrArg (fun v : State => { v with
        ports := driveDecode c (driveReceived (raw.take 255) (driveEncode c m d s.ports))
        replies := rest, written := s.written ++ [frameBytes c m d] })
      (runDecode_setReplies c (raw.take 255) (.bytes raw :: rest)
        { runEncode c m d s with draws := n })

/-- A request that the transport fails stops after ENCODE, and its outcome is the failure. -/
theorem transact_exchangeFailed {f : Reply} (hm : Meets s f rest n) (hf : ∀ raw, f ≠ .bytes raw) :
    ∃ u, ExchangeFailed c m d (frameBytes c m d) (handedOver f) rest n s u ∧
      transact c m d s = (u, failureKind f) := by
  refine ⟨_, ⟨_, rfl, frameOut_runEncode hd c m s, runEncode_status_of_fits hd c m s, ?after⟩,
    (transact_of_meets hd c m hm).trans (transact_failure hd c m rfl hf)⟩
  case after =>
    rw [runEncode_setInputs]
    cases f with
    | bytes raw => exact absurd rfl (hf raw)
    | purgeFails => rfl
    | writeFails => rfl
    | readFails => rfl

end Expansion

/-! ### The messages whose response is discarded -/

/-- A message that ends in a plain request made in the state `p`, where the reply to come is the one
that was to come in `s`. -/
theorem discardsFrom_of_plainMessage {i : Instr} {c m : Byte} {d frame : List Byte} {s p : State}
    (hd : d.length ≤ 250) (hframe : frameBytes c m d = frame)
    (hmeets : ∀ {r : Reply} {rest : List Reply} {n : Nat}, Meets s r rest n → Meets p r rest n)
    (hexec : exec i s = .next (plainMessage c m d p)) : DiscardsFrom i c m d frame s p := by
  subst hframe
  have hends {x : State × ErrorKind} (hx : transact c m d p = x) :
      exec i s = .next (endCall x) := by
    rw [hexec, plainMessage, hx]
  have hfails {f : Reply} {rest : List Reply} {n : Nat} (hm : Meets s f rest n)
      (hf : ∀ raw, f ≠ .bytes raw) :
      ∃ u, ExchangeFailed c m d (frameBytes c m d) (handedOver f) rest n p u ∧
        exec i s = .next { u with apiStatus := failureKind f } := by
    obtain ⟨u, hu, hx⟩ := transact_exchangeFailed hd c m (hmeets hm) hf
    exact ⟨u, hu, hends hx⟩
  intro r rest n hm
  cases r with
  | bytes raw =>
    obtain ⟨u, hu, hx⟩ := transact_exchanged hd c m (hmeets hm)
    exact ⟨u, hu, hends hx⟩
  | purgeFails => exact hfails hm fun _ => nofun
  | writeFails => exact hfails hm fun _ => nofun
  | readFails => exact hfails hm fun _ => nofun

theorem discardsResponse_of_plainMessage {i : Instr} {c m : Byte} {d frame : List Byte}
    (hd : d.length ≤ 250) (hframe : frameBytes c m d = frame)
    (hexec : ∀ s, exec i s = .next (plainMessage c m d s)) : DiscardsResponse i c m d frame :=
  fun s => discardsFrom_of_plainMessage hd hframe id (hexec s)

/-- Settles O39: each is a plain request, whose frame is computed from its id, command and data. -/
theorem relayMessagesSendTheirFrames : Obligations.RelayMessagesSendTheirFrames := by
  refine ⟨?_, ?_, ?_, ?_, ?_, ?_, ?_, ?_⟩ <;>
    exact discardsResponse_of_plainMessage (by simp) (by decide) fun _ => rfl

/-- Settles O40: likewise, to the motor controller and to the broadcast id. -/
theorem motorAndGlobalMessagesSendTheirFrames :
    Obligations.MotorAndGlobalMessagesSendTheirFrames := by
  refine ⟨?_, ?_, ?_, ?_⟩ <;>
    exact discardsResponse_of_plainMessage (by simp) (by decide) fun _ => rfl

/-! ### The messages that pack coordinates -/

/-- R200: the checksum of the bytes around the coordinate is 0x10. -/
theorem frameBytes_motorRun (b : Byte) :
    frameBytes 0x30#8 0x13#8 [b] = [0x35#8, 0x30#8, 0x06#8, 0x13#8, b, 0x10#8 ^^^ b] := by
  simp [frameBytes, frameBody, frameChecksum, fold, Config.stx, Config.overhead]

/-- R201: with one byte more the length changes, and the checksum of the rest is 0x11. -/
theorem frameBytes_motorPairRun (b1 b2 : Byte) :
    frameBytes 0x30#8 0x13#8 [b1, b2]
      = [0x35#8, 0x30#8, 0x07#8, 0x13#8, b1, b2, 0x11#8 ^^^ b1 ^^^ b2] := by
  simp [frameBytes, frameBody, frameChecksum, fold, Config.stx, Config.overhead]

/-- PACK on the ports that the host has driven for it is PACK issued. -/
theorem exec_pack_driven (row col : Byte) (s : State) :
    exec (.pack row col) { s with ports := drivePack row col s.ports }
      = .next (issuePack row col s) := rfl

theorem issuePack_coord {row col : Byte} (h : coordInRange row col = true) (s : State) :
    (issuePack row col s).coord = coordByte row col := by rw [issuePack_inRange h]

/-- Settles O41: inside the grid a plain request follows PACK, outside PACK's failure is all. -/
theorem motorRunSendsItsCoordinate : Obligations.MotorRunSendsItsCoordinate := by
  refine ⟨?inside, ?outside⟩
  case inside =>
    intro row col s p hrow hcol hp
    cases (exec_pack_driven row col s).symm.trans hp
    have hin := (coordInRange_iff row col).2 ⟨hrow, hcol⟩
    refine discardsFrom_of_plainMessage (by simp) (frameBytes_motorRun _)
      (fun hm => hm.issuePack row col) ?_
    rw [issuePack_coord hin]
    exact execMotorRun_inGrid hin s
  case outside =>
    intro row col s hout
    have hfails := (coordInRange_eq_false_iff row col).2 hout
    exact (execMotorRun_outside hfails s).trans (by rw [issuePack_outOfRange hfails]; rfl)

/-- Settles O42: both PACKs come before the request, and the first one that fails ends it. -/
theorem motorPairRunSendsBothCoordinates : Obligations.MotorPairRunSendsBothCoordinates := by
  refine ⟨?inside, ?outside⟩
  case inside =>
    intro row c1 c2 s p q hrow hc1 hc2 hp hq
    cases (exec_pack_driven row c1 s).symm.trans hp
    cases (exec_pack_driven row c2 _).symm.trans hq
    have hin1 := (coordInRange_iff row c1).2 ⟨hrow, hc1⟩
    have hin2 := (coordInRange_iff row c2).2 ⟨hrow, hc2⟩
    refine discardsFrom_of_plainMessage (by simp) (frameBytes_motorPairRun _ _)
      (fun hm => (hm.issuePack row c1).issuePack row c2) ?_
    rw [issuePack_coord hin1, issuePack_coord hin2]
    exact execMotorPairRun_inGrid hin1 hin2 s
  case outside =>
    intro row c1 c2 s hout
    cases hin1 : coordInRange row c1 with
    | false =>
      refine ⟨_, execMotorPairRun_firstOutside hin1 c2 s, ?_⟩
      rw [issuePack_outOfRange hin1]
      rfl
    | true =>
      obtain ⟨hrow, hc1⟩ := (coordInRange_iff row c1).1 hin1
      have hin2 := (coordInRange_eq_false_iff row c2).2 (by omega)
      refine ⟨_, execMotorPairRun_secondOutside hin1 hin2 s, ?_⟩
      rw [issuePack_outOfRange hin2, issuePack_inRange hin1]
      rfl

/-! ### The version string -/

/-- R204: the string stops before the first zero byte, or takes all there is. -/
theorem versionString_spec (resp : List Byte) :
    ∃ tail, resp.drop 1 = versionString resp ++ tail ∧ 0x00#8 ∉ versionString resp ∧
      (tail = [] ∨ ∃ more, tail = 0x00#8 :: more) := by
  refine ⟨(resp.drop 1).dropWhile (· != 0x00#8), List.takeWhile_append_dropWhile.symm, ?nozero,
    ?stops⟩
  case nozero =>
    intro hmem
    simpa using List.mem_takeWhile_imp hmem
  case stops =>
    cases htail : (resp.drop 1).dropWhile (· != 0x00#8) with
    | nil => exact .inl rfl
    | cons b more =>
      have hb : b = 0x00#8 := by
        have hhead := List.head?_dropWhile_not (· != 0x00#8) (resp.drop 1)
        rw [htail] at hhead
        simpa using hhead
      exact .inr ⟨more, by rw [hb]⟩

theorem status_ne_kindOk {code : Nibble} (h : code ≠ 0#4) : ErrorKind.status code ≠ kindOk :=
  fun hk => h (ErrorKind.status.inj hk)

theorem givesVersion_of_versionMessage {i : Instr} {c : Byte} {frame : List Byte}
    (hframe : frameBytes c 0x02#8 [] = frame)
    (hexec : ∀ s, exec i s = .next (versionMessage c s)) : GivesVersion i c frame := by
  subst hframe
  intro s raw rest n hm
  obtain ⟨u, hu, hx⟩ := transact_exchanged (d := []) (by simp) c 0x02#8 hm
  have hends : exec i s = .next (versionOf (u, .status u.status)) := by
    rw [hexec, versionMessage, hx]
  by_cases hok : u.status = 0#4
  · have hkind : ErrorKind.status u.status = kindOk := congrArg ErrorKind.status hok
    exact ⟨u, versionString (respOut u), hu, hends.trans (congrArg _ (versionOf_ok hkind)),
      fun hne => absurd hok hne, fun _ => versionString_spec (respOut u)⟩
  · exact ⟨u, [], hu, hends.trans (congrArg _ (versionOf_fails (status_ne_kindOk hok))),
      fun _ => rfl, fun h => absurd h hok⟩

/-- Settles O43: the three version messages, each with its own id. -/
theorem versionMessagesGiveTheString : Obligations.VersionMessagesGiveTheString :=
  ⟨givesVersion_of_versionMessage (by decide) fun _ => rfl,
    givesVersion_of_versionMessage (by decide) fun _ => rfl,
    givesVersion_of_versionMessage (by decide) fun _ => rfl⟩

/-! ### The current and the active list -/

/-- Settles O45: the clamp of R206 never bites, and a quotient grows with its dividend. -/
theorem currentScalingIsMonotonic : Obligations.CurrentScalingIsMonotonic := by
  refine ⟨fun b => ⟨currentOf_eq b, Nat.min_le_right _ _⟩, fun b c hle => ?grows,
    by decide, by decide, by decide⟩
  case grows =>
    rw [currentOf_eq, currentOf_eq]
    exact Nat.div_le_div_right (Nat.mul_le_mul_right 500 hle)

/-- Each UNPACK overwrites all that the one before it wrote, so the last one stands alone
(log 12). -/
theorem unpackAll_eq_last {l : List Byte} (hl : l ≠ []) (s : State) :
    (unpackAll l s).2 = issueUnpack (l.getLast hl) s := by
  induction l generalizing s with
  | nil => exact absurd rfl hl
  | cons b bs ih =>
    cases bs with
    | nil => rfl
    | cons b' bs =>
      rw [List.getLast_cons (List.cons_ne_nil b' bs)]
      exact ih (List.cons_ne_nil b' bs) (issueUnpack b s)

/-- After a DECODE that went well, UNPACK over a list leaves STATUS and DONE as they are too. -/
theorem unpackAll_state_of_ok (l : List Byte) {s : State} (hok : s.status = statusOk)
    (hdone : s.done = true) :
    (unpackAll l s).2 = { s with
      rowOut := (unpackAll l s).2.rowOut, colOut := (unpackAll l s).2.colOut
      coordValid := (unpackAll l s).2.coordValid, ports := (unpackAll l s).2.ports } := by
  obtain ⟨hstatus, hdone'⟩ := unpackAll_status l s hok hdone
  rw [unpackAll_state, hstatus, hdone', ← hok, ← hdone]

theorem length_unpackAll (l : List Byte) (s : State) : (unpackAll l s).1.length = l.length := by
  rw [unpackAll_list, List.length_map]

/-- Entry `k` of the active list is UNPACK of byte `k` (R205). -/
theorem unpackAll_entry {l : List Byte} {s : State} {k : Nat} {m : Motor}
    (hm : (unpackAll l s).1[k]? = some m) :
    m = { row := coordRow (l.getD k 0), col := coordCol (l.getD k 0)
          valid := coordValidOf (l.getD k 0) } := by
  rw [unpackAll_list, List.getElem?_map] at hm
  obtain ⟨b, hb, rfl⟩ := Option.map_eq_some_iff.1 hm
  rw [List.getD, hb, Option.getD_some]

/-- The response data past the echo and the current, by its place in the whole. -/
theorem getD_drop_two (l : List Byte) (k : Nat) : (l.drop 2).getD k 0 = l.getD (2 + k) 0 := by
  rw [List.getD, List.getElem?_drop, List.getD]

theorem getLast_drop_two {l : List Byte} (h : l.drop 2 ≠ []) :
    (l.drop 2).getLast h = l.getD (l.length - 1) 0 := by
  have hl : l ≠ [] := fun hnil => h (by rw [hnil]; rfl)
  rw [List.getLast_drop, List.getLast_eq_getElem, List.getD_eq_getElem]

/-- What MOTOR_STATUS makes of an accepted response whose echo is right. -/
def motorStatusAccepted (u : State) : State :=
  { (unpackAll ((respOut u).drop 2) u).2 with
    apiStatus := kindOk
    currentMA := BitVec.ofNat 16 (currentOf ((respOut u).getD 1 0))
    active := (unpackAll ((respOut u).drop 2) u).1 }

theorem motorStatusAccepted_frame {u : State} (hok : u.status = statusOk) (hdone : u.done = true) :
    motorStatusAccepted u = { u with
      apiStatus := kindOk
      currentMA := (motorStatusAccepted u).currentMA, active := (motorStatusAccepted u).active
      rowOut := (motorStatusAccepted u).rowOut, colOut := (motorStatusAccepted u).colOut
      coordValid := (motorStatusAccepted u).coordValid
      ports := (motorStatusAccepted u).ports } := by
  rw [motorStatusAccepted, unpackAll_state_of_ok _ hok hdone]

theorem motorStatusAccepted_currentMA (u : State) :
    (motorStatusAccepted u).currentMA.toNat = ((respOut u).getD 1 0).toNat * 500 / 255 :=
  (toNat_currentOf _).trans (currentOf_eq _)

theorem motorStatusAccepted_length (u : State) :
    (motorStatusAccepted u).active.length = (respOut u).length - 2 :=
  (length_unpackAll _ u).trans (List.length_drop ..)

theorem motorStatusAccepted_entry {u : State} {k : Nat} {m : Motor}
    (hm : (motorStatusAccepted u).active[k]? = some m) :
    ∃ w, exec (.unpack ((respOut u).getD (2 + k) 0)) u = .next w ∧
      m.row = w.rowOut ∧ m.col = w.colOut ∧ m.valid = w.coordValid := by
  have hentry := unpackAll_entry hm
  rw [getD_drop_two] at hentry
  subst hentry
  exact ⟨_, exec_unpack _ u, rfl, rfl, rfl⟩

/-- With no motor active nothing is unpacked. -/
theorem motorStatusAccepted_noMotor {u : State} (hlen : (respOut u).length = 2) :
    (motorStatusAccepted u).rowOut = u.rowOut ∧ (motorStatusAccepted u).colOut = u.colOut ∧
      (motorStatusAccepted u).coordValid = u.coordValid ∧
      (motorStatusAccepted u).ports = u.ports := by
  rw [motorStatusAccepted, List.drop_of_length_le hlen.le]
  exact ⟨rfl, rfl, rfl, rfl⟩

/-- With motors active the registers of UNPACK hold the last one (log 12). -/
theorem motorStatusAccepted_lastMotor {u : State} {b : Byte} (hlen : 2 < (respOut u).length)
    (hb : (respOut u).getD ((respOut u).length - 1) 0 = b) :
    ∃ w, exec (.unpack b) u = .next w ∧ (motorStatusAccepted u).rowOut = w.rowOut ∧
      (motorStatusAccepted u).colOut = w.colOut ∧
      (motorStatusAccepted u).coordValid = w.coordValid ∧
      (motorStatusAccepted u).ports = driveUnpack b u.ports := by
  have hne : (respOut u).drop 2 ≠ [] := fun hnil => by
    have := List.drop_eq_nil_iff.1 hnil
    omega
  rw [motorStatusAccepted, unpackAll_eq_last hne, getLast_drop_two hne, hb]
  exact ⟨_, exec_unpack b u, rfl, rfl, rfl, rfl⟩

/-- Settles O44: the four endings of MOTOR_STATUS exclude each other, and the accepted one is
described field by field. -/
theorem motorStatusDecodesCurrentAndMotors : Obligations.MotorStatusDecodesCurrentAndMotors := by
  intro s raw rest n hm
  obtain ⟨u, hu, hx⟩ := transact_exchanged (d := []) (by simp) 0x30#8 0x10#8 hm
  have hdone : u.done = true := by
    simpa [hx] using transact_done (d := []) (by simp) 0x30#8 0x10#8 s
  have hexec {t : State} (ht : motorStatusOf (u, .status u.status) = t) :
      exec .motorStatus s = .next t :=
    congrArg Host.Outcome.next ((congrArg motorStatusOf hx).trans ht)
  rcases motorStatusOf_cases (u, .status u.status) with
    ⟨hk, ht⟩ | ⟨hk, hlen, ht⟩ | ⟨hk, hlen, hecho, ht⟩ | ⟨hk, hlen, hecho, ht⟩
  · have hne : u.status ≠ 0#4 := fun h => hk (congrArg ErrorKind.status h)
    exact ⟨u, _, hu, hexec ht, fun _ => rfl, fun h => absurd h hne, fun h => absurd h hne,
      fun h => absurd h hne⟩
  · have hok : u.status = 0#4 := ErrorKind.status.inj hk
    exact ⟨u, _, hu, hexec ht, fun hne => absurd hok hne, fun _ _ => rfl,
      fun _ hge => absurd hlen hge.not_gt, fun _ hge => absurd hlen hge.not_gt⟩
  · have hok : u.status = 0#4 := ErrorKind.status.inj hk
    exact ⟨u, _, hu, hexec ht, fun hne => absurd hok hne, fun _ hlt => absurd hlt hlen.not_gt,
      fun _ _ _ => rfl, fun _ _ he => absurd he hecho⟩
  · have hok : u.status = 0#4 := ErrorKind.status.inj hk
    exact ⟨u, motorStatusAccepted u, hu, hexec ht, fun hne => absurd hok hne,
      fun _ hlt => absurd hlt hlen.not_gt, fun _ _ hne => absurd hecho hne,
      fun _ _ _ => ⟨motorStatusAccepted_frame hok hdone, motorStatusAccepted_currentMA u,
        motorStatusAccepted_length u, fun _ _ => motorStatusAccepted_entry,
        motorStatusAccepted_noMotor, fun _ => motorStatusAccepted_lastMotor⟩⟩

/-! ### The optical-line word -/

/-- A byte shifted above a word that has room for it counts as its next digit. -/
theorem toNat_or_shiftLeft_byte {x : BitVec 32} {k : Nat} (hx : x.toNat < 2 ^ k) (hk : k ≤ 24)
    (b : Byte) : (x ||| (b.setWidth 32 <<< k)).toNat = x.toNat + 2 ^ k * b.toNat := by
  have hb : b.toNat * 2 ^ k < 2 ^ 32 :=
    calc b.toNat * 2 ^ k < 2 ^ 8 * 2 ^ k := Nat.mul_lt_mul_of_pos_right b.isLt (Nat.two_pow_pos k)
      _ ≤ 2 ^ 8 * 2 ^ 24 := Nat.mul_le_mul_left _ (Nat.pow_le_pow_right (by decide) hk)
      _ = 2 ^ 32 := rfl
  rw [BitVec.toNat_or, BitVec.toNat_shiftLeft, BitVec.toNat_setWidth_of_le (by decide),
    Nat.shiftLeft_eq, Nat.mod_eq_of_lt hb, Nat.or_comm, Nat.mul_comm,
    ← Nat.two_pow_add_eq_or_of_lt hx, Nat.add_comm]

/-- R207: the least significant byte comes first. -/
theorem toNat_optoWord (resp : List Byte) :
    (optoWord resp).toNat = (resp.getD 1 0).toNat + 256 * (resp.getD 2 0).toNat +
      65536 * (resp.getD 3 0).toNat + 16777216 * (resp.getD 4 0).toNat := by
  have h1 : ((resp.getD 1 0).setWidth 32).toNat = (resp.getD 1 0).toNat :=
    BitVec.toNat_setWidth_of_le (by decide)
  have hb1 := (resp.getD 1 0).isLt
  have hb2 := (resp.getD 2 0).isLt
  have hb3 := (resp.getD 3 0).isLt
  have h2 := toNat_or_shiftLeft_byte (k := 8) (h1.trans_lt (by omega)) (by decide) (resp.getD 2 0)
  have h3 := toNat_or_shiftLeft_byte (k := 16) (h2.trans_lt (by omega)) (by decide) (resp.getD 3 0)
  have h4 := toNat_or_shiftLeft_byte (k := 24) (h3.trans_lt (by omega)) (by decide) (resp.getD 4 0)
  rw [optoWord]
  omega

/-- Settles O46: the three endings of MOTOR_OPTO_LINE_STATUS exclude each other. -/
theorem optoLineStatusIsLittleEndian : Obligations.OptoLineStatusIsLittleEndian := by
  intro s raw rest n hm
  obtain ⟨u, hu, hx⟩ := transact_exchanged (d := []) (by simp) 0x30#8 0x15#8 hm
  have hexec {t : State} (ht : optoLineOf (u, .status u.status) = t) :
      exec .motorOptoLineStatus s = .next t :=
    congrArg Host.Outcome.next ((congrArg optoLineOf hx).trans ht)
  refine ⟨u, optoWord (respOut u), hu, ?_⟩
  rcases optoLineOf_cases (u, .status u.status) with ⟨hk, ht⟩ | ⟨hk, hlen, ht⟩ | ⟨hk, hlen, ht⟩
  · have hne : u.status ≠ 0#4 := fun h => hk (congrArg ErrorKind.status h)
    exact ⟨fun _ => hexec ht, fun h => absurd h hne, fun h => absurd h hne⟩
  · have hok : u.status = 0#4 := ErrorKind.status.inj hk
    exact ⟨fun hne => absurd hok hne, fun _ _ => hexec ht, fun _ hge => absurd hlen hge.not_gt⟩
  · have hok : u.status = 0#4 := ErrorKind.status.inj hk
    exact ⟨fun hne => absurd hok hne, fun _ hlt => absurd hlt hlen.not_gt,
      fun _ _ => ⟨hexec ht, toNat_optoWord (respOut u)⟩⟩

/-! ### At most one exchange -/

/-- From `s` to `t` at most one frame is handed over and at most one reply taken. -/
def AtMostOneExchange (s t : State) : Prop :=
  (t.written = s.written ∨ ∃ f, t.written = s.written ++ [f]) ∧
    (t.replies = s.replies ∨ t.replies = s.replies.tail)

/-- From `s` to `t` nothing happens outside the block. -/
def StaysInBlock (s t : State) : Prop :=
  t.written = s.written ∧ t.replies = s.replies ∧ t.apiStatus = s.apiStatus ∧ t.ports = s.ports

theorem StaysInBlock.atMostOneExchange {s t : State} (h : StaysInBlock s t) :
    AtMostOneExchange s t := by
  obtain ⟨hwritten, hreplies, _, _⟩ := h
  exact ⟨.inl hwritten, .inl hreplies⟩

theorem runEncode_staysInBlock (c m : Byte) (d : List Byte) (s : State) :
    StaysInBlock s (runEncode c m d s) := by
  rcases Nat.lt_or_ge 250 d.length with h | h
  · rw [runEncode_tooLong h]; exact ⟨rfl, rfl, rfl, rfl⟩
  · rw [runEncode_fits h]; exact ⟨rfl, rfl, rfl, rfl⟩

theorem runDecode_staysInBlock (ctx : Byte) (raw : List Byte) (s : State) :
    StaysInBlock s (runDecode ctx raw s) := by
  rw [runDecode_frame]; exact ⟨rfl, rfl, rfl, rfl⟩

theorem runPack_staysInBlock (row col : Byte) (s : State) :
    StaysInBlock s (runPack row col s) := by
  cases h : coordInRange row col with
  | true => rw [runPack_inRange h]; exact ⟨rfl, rfl, rfl, rfl⟩
  | false => rw [runPack_outOfRange h]; exact ⟨rfl, rfl, rfl, rfl⟩

/-- A block operation knows nothing of the message layer (10_state.md section 4). -/
theorem exec_staysInBlock {i : Instr} (hop : isOperation i = true) {s t : State}
    (ht : exec i s = .next t) : StaysInBlock s t := by
  cases i with
  | encode c m d => cases ht; exact runEncode_staysInBlock c m d s
  | decode ctx raw => cases ht; exact runDecode_staysInBlock ctx raw s
  | xorfold l => cases ht; exact ⟨rfl, rfl, rfl, rfl⟩
  | pack row col => cases ht; exact runPack_staysInBlock row col s
  | unpack b => cases ht; exact ⟨rfl, rfl, rfl, rfl⟩
  | reserved101 => cases ht; exact ⟨rfl, rfl, rfl, rfl⟩
  | reserved110 => cases ht; exact ⟨rfl, rfl, rfl, rfl⟩
  | reserved111 => cases ht; exact ⟨rfl, rfl, rfl, rfl⟩
  | _ => cases hop

theorem versionOf_replies (x : State × ErrorKind) : (versionOf x).replies = x.1.replies := by
  by_cases h : x.2 = kindOk
  · rw [versionOf_ok h]; rfl
  · rw [versionOf_fails h]; rfl

theorem motorStatusOf_replies (x : State × ErrorKind) :
    (motorStatusOf x).replies = x.1.replies := by
  rcases motorStatusOf_cases x with ⟨_, e⟩ | ⟨_, _, e⟩ | ⟨_, _, _, e⟩ | ⟨_, _, _, e⟩ <;> rw [e]
  rw [unpackAll_state]

theorem optoLineOf_replies (x : State × ErrorKind) : (optoLineOf x).replies = x.1.replies := by
  rcases optoLineOf_cases x with ⟨_, e⟩ | ⟨_, _, e⟩ | ⟨_, _, e⟩ <;> rw [e]

theorem issuePack_replies (row col : Byte) (s : State) :
    (issuePack row col s).replies = s.replies := by
  obtain ⟨_, hreplies, _, _⟩ :=
    runPack_staysInBlock row col { s with ports := drivePack row col s.ports }
  exact hreplies

/-- A request exchanges once, and no ending of a message exchanges again. -/
theorem ending_atMostOneExchange {d : List Byte} (hd : d.length ≤ 250) (c m : Byte) (s : State)
    {ending : State × ErrorKind → State} (hwritten : ∀ x, (ending x).written = x.1.written)
    (hreplies : ∀ x, (ending x).replies = x.1.replies) :
    AtMostOneExchange s (ending (transact c m d s)) := by
  obtain ⟨hframe, htail⟩ := transact_io hd c m s
  rw [AtMostOneExchange, hwritten, hreplies]
  exact ⟨hframe.imp_right fun h => ⟨_, h⟩, .inr htail⟩

theorem plainMessage_atMostOneExchange {d : List Byte} (hd : d.length ≤ 250) (c m : Byte)
    (s : State) : AtMostOneExchange s (plainMessage c m d s) :=
  ending_atMostOneExchange hd c m s endCall_written endCall_replies

theorem versionMessage_atMostOneExchange (c : Byte) (s : State) :
    AtMostOneExchange s (versionMessage c s) :=
  ending_atMostOneExchange (by simp) c _ s versionOf_written versionOf_replies

/-- PACK exchanges nothing, so what follows it counts as from before it. -/
theorem AtMostOneExchange.of_issuePack {row col : Byte} {s t : State}
    (h : AtMostOneExchange (issuePack row col s) t) : AtMostOneExchange s t := by
  rwa [AtMostOneExchange, issuePack_written, issuePack_replies] at h

theorem issuePack_atMostOneExchange (row col : Byte) (s : State) :
    AtMostOneExchange s (issuePack row col s) :=
  ⟨.inl (issuePack_written row col s), .inl (issuePack_replies row col s)⟩

theorem execMotorRun_atMostOneExchange {row col : Byte} {s t : State}
    (ht : execMotorRun row col s = .next t) : AtMostOneExchange s t := by
  cases hin : coordInRange row col with
  | true =>
    cases (execMotorRun_inGrid hin s).symm.trans ht
    exact (plainMessage_atMostOneExchange (by simp) _ _ _).of_issuePack
  | false =>
    cases (execMotorRun_outside hin s).symm.trans ht
    exact issuePack_atMostOneExchange row col s

theorem execMotorPairRun_atMostOneExchange {row c1 c2 : Byte} {s t : State}
    (ht : execMotorPairRun row c1 c2 s = .next t) : AtMostOneExchange s t := by
  cases hin1 : coordInRange row c1 with
  | false =>
    cases (execMotorPairRun_firstOutside hin1 c2 s).symm.trans ht
    exact issuePack_atMostOneExchange row c1 s
  | true =>
    cases hin2 : coordInRange row c2 with
    | true =>
      cases (execMotorPairRun_inGrid hin1 hin2 s).symm.trans ht
      exact (plainMessage_atMostOneExchange (by simp) _ _ _).of_issuePack.of_issuePack
    | false =>
      cases (execMotorPairRun_secondOutside hin1 hin2 s).symm.trans ht
      exact (issuePack_atMostOneExchange row c2 _).of_issuePack

theorem exec_atMostOneExchange {i : Instr} {s t : State} (ht : exec i s = .next t) :
    AtMostOneExchange s t := by
  cases i with
  | relayPing id => cases ht; exact plainMessage_atMostOneExchange (by simp) _ _ s
  | relayVersion id => cases ht; exact versionMessage_atMostOneExchange _ s
  | relayReset id => cases ht; exact plainMessage_atMostOneExchange (by simp) _ _ s
  | relaySet id on => cases ht; exact plainMessage_atMostOneExchange (by simp) _ _ s
  | motorPing => cases ht; exact plainMessage_atMostOneExchange (by simp) _ _ s
  | motorVersion => cases ht; exact versionMessage_atMostOneExchange _ s
  | motorReset => cases ht; exact plainMessage_atMostOneExchange (by simp) _ _ s
  | motorStatus =>
    cases ht
    exact ending_atMostOneExchange (by simp) _ _ s motorStatusOf_written motorStatusOf_replies
  | motorStopAll => cases ht; exact plainMessage_atMostOneExchange (by simp) _ _ s
  | motorRun row col => exact execMotorRun_atMostOneExchange ht
  | motorPairRun row c1 c2 => exact execMotorPairRun_atMostOneExchange ht
  | motorOptoLineStatus =>
    cases ht
    exact ending_atMostOneExchange (by simp) _ _ s optoLineOf_written optoLineOf_replies
  | globalReset => cases ht; exact plainMessage_atMostOneExchange (by simp) _ _ s
  | _ => exact (exec_staysInBlock rfl ht).atMostOneExchange

/-- Settles O49: every message exchanges at most once, and a block operation stays in the block. -/
theorem atMostOneExchangePerInstruction : Obligations.AtMostOneExchangePerInstruction := by
  intro i s t ht
  obtain ⟨hwritten, hreplies⟩ := exec_atMostOneExchange ht
  exact ⟨hwritten, hreplies, fun hop => exec_staysInBlock hop ht⟩

end Sys2Proof.Machine
end

section
/-! SUPPORT. The family of 60_exceptions.md: no operation and no message ends with NEGATIVE_ACK
(R233), and a transport failure stops a message with outputs before its DECODE (R231). -/

namespace Sys2Proof.Machine

/-! ### NEGATIVE_ACK is raised by no block operation -/

theorem statusOk_ne_negativeAck : statusOk ≠ statusNegativeAck := by decide

theorem statusInvalidLength_ne_negativeAck : statusInvalidLength ≠ statusNegativeAck := by decide

theorem statusInvalidSource_ne_negativeAck : statusInvalidSource ≠ statusNegativeAck := by decide

theorem statusInvalidMotorCoordinates_ne_negativeAck :
    statusInvalidMotorCoordinates ≠ statusNegativeAck := by decide

theorem decodeStatus_ne_negativeAck (ctx : Byte) (raw : List Byte) :
    decodeStatus ctx raw ≠ statusNegativeAck := by
  rcases decodeStatus_codes ctx raw with h | h | h | h | h <;> rw [h] <;> decide

theorem runEncode_status_ne_negativeAck (c m : Byte) (d : List Byte) (s : State) :
    (runEncode c m d s).status ≠ statusNegativeAck := by
  rcases Nat.lt_or_ge 250 d.length with h | h
  · rw [runEncode_tooLong h]; exact statusInvalidLength_ne_negativeAck
  · rw [runEncode_fits h]; exact statusOk_ne_negativeAck

theorem runDecode_status_ne_negativeAck (ctx : Byte) (raw : List Byte) (s : State) :
    (runDecode ctx raw s).status ≠ statusNegativeAck := by
  rw [runDecode_status]; exact decodeStatus_ne_negativeAck ctx raw

theorem runPack_status_ne_negativeAck (row col : Byte) (s : State) :
    (runPack row col s).status ≠ statusNegativeAck := by
  cases h : coordInRange row col with
  | true => rw [runPack_inRange h]; exact statusOk_ne_negativeAck
  | false => rw [runPack_outOfRange h]; exact statusInvalidMotorCoordinates_ne_negativeAck

/-- UNPACK over a list keeps the STATUS before it or writes OK. -/
theorem unpackAll_status_ne_negativeAck (l : List Byte) {s : State}
    (h : s.status ≠ statusNegativeAck) : (unpackAll l s).2.status ≠ statusNegativeAck := by
  induction l generalizing s with
  | nil => exact h
  | cons b bs ih => exact ih (s := issueUnpack b s) statusOk_ne_negativeAck

/-- The reserved OP values are left out: they keep whatever code STATUS holds (R71). -/
theorem exec_status_ne_negativeAck {i : Instr} (hlegal : isLegalOperation i = true) {s t : State}
    (ht : exec i s = .next t) : t.status ≠ statusNegativeAck := by
  cases i with
  | encode c m d => cases ht; exact runEncode_status_ne_negativeAck c m d s
  | decode ctx raw => cases ht; exact runDecode_status_ne_negativeAck ctx raw s
  | xorfold l => cases ht; exact statusOk_ne_negativeAck
  | pack row col => cases ht; exact runPack_status_ne_negativeAck row col s
  | unpack b => cases ht; exact statusOk_ne_negativeAck
  | _ => cases hlegal

/-! ### No message ends with NEGATIVE_ACK -/

/-- Neither STATUS nor the outcome of the message, given beside it, is NEGATIVE_ACK. -/
def NoNegativeAck (s : State) (k : ErrorKind) : Prop :=
  s.status ≠ statusNegativeAck ∧ k ≠ .status statusNegativeAck

theorem noNegativeAck_of_status {s : State} (h : s.status ≠ statusNegativeAck) {code : Nibble}
    (hcode : code ≠ statusNegativeAck) : NoNegativeAck s (.status code) :=
  ⟨h, fun hk => hcode (ErrorKind.status.inj hk)⟩

theorem noNegativeAck_transact {d : List Byte} (hd : d.length ≤ 250) (c m : Byte) (s : State) :
    NoNegativeAck (transact c m d s).1 (transact c m d s).2 := by
  obtain ⟨_, hstatus, _, hkind, _⟩ := transact_ends hd c m s
  exact ⟨hstatus, hkind⟩

/-- A PACK that fails ends the message with its own code. -/
theorem noNegativeAck_packFailed (row col : Byte) (s : State) :
    NoNegativeAck (issuePack row col s) (.status statusInvalidMotorCoordinates) :=
  noNegativeAck_of_status (runPack_status_ne_negativeAck row col _)
    statusInvalidMotorCoordinates_ne_negativeAck

section Endings

variable {x : State × ErrorKind} (h : NoNegativeAck x.1 x.2)
include h

theorem noNegativeAck_versionOf : NoNegativeAck (versionOf x) (versionOf x).apiStatus := by
  by_cases hok : x.2 = kindOk
  · rw [versionOf_ok hok]; exact h
  · rw [versionOf_fails hok]; exact h

theorem noNegativeAck_motorStatusOf :
    NoNegativeAck (motorStatusOf x) (motorStatusOf x).apiStatus := by
  have ⟨hstatus, _⟩ := h
  rcases motorStatusOf_cases x with ⟨_, e⟩ | ⟨_, _, e⟩ | ⟨_, _, _, e⟩ | ⟨_, _, _, e⟩ <;> rw [e]
  · exact h
  · exact noNegativeAck_of_status hstatus statusInvalidLength_ne_negativeAck
  · exact noNegativeAck_of_status hstatus statusInvalidSource_ne_negativeAck
  · exact noNegativeAck_of_status (unpackAll_status_ne_negativeAck _ hstatus)
      statusOk_ne_negativeAck

theorem noNegativeAck_optoLineOf : NoNegativeAck (optoLineOf x) (optoLineOf x).apiStatus := by
  have ⟨hstatus, _⟩ := h
  rcases optoLineOf_cases x with ⟨_, e⟩ | ⟨_, _, e⟩ | ⟨_, _, e⟩ <;> rw [e]
  · exact h
  · exact noNegativeAck_of_status hstatus statusInvalidLength_ne_negativeAck
  · exact noNegativeAck_of_status hstatus statusOk_ne_negativeAck

end Endings

theorem noNegativeAck_plainMessage {d : List Byte} (hd : d.length ≤ 250) (c m : Byte) (s : State) :
    NoNegativeAck (plainMessage c m d s) (plainMessage c m d s).apiStatus :=
  noNegativeAck_transact hd c m s

theorem noNegativeAck_versionMessage (c : Byte) (s : State) :
    NoNegativeAck (versionMessage c s) (versionMessage c s).apiStatus :=
  noNegativeAck_versionOf (noNegativeAck_transact (by simp) c _ s)

theorem noNegativeAck_execMotorRun {row col : Byte} {s t : State}
    (ht : execMotorRun row col s = .next t) : NoNegativeAck t t.apiStatus := by
  cases hin : coordInRange row col with
  | true =>
    cases (execMotorRun_inGrid hin s).symm.trans ht
    exact noNegativeAck_plainMessage (by simp) _ _ _
  | false =>
    cases (execMotorRun_outside hin s).symm.trans ht
    exact noNegativeAck_packFailed row col s

theorem noNegativeAck_execMotorPairRun {row c1 c2 : Byte} {s t : State}
    (ht : execMotorPairRun row c1 c2 s = .next t) : NoNegativeAck t t.apiStatus := by
  cases hin1 : coordInRange row c1 with
  | false =>
    cases (execMotorPairRun_firstOutside hin1 c2 s).symm.trans ht
    exact noNegativeAck_packFailed row c1 s
  | true =>
    cases hin2 : coordInRange row c2 with
    | true =>
      cases (execMotorPairRun_inGrid hin1 hin2 s).symm.trans ht
      exact noNegativeAck_plainMessage (by simp) _ _ _
    | false =>
      cases (execMotorPairRun_secondOutside hin1 hin2 s).symm.trans ht
      exact noNegativeAck_packFailed row c2 _

theorem noNegativeAck_exec {i : Instr} (hmessage : isOperation i = false) {s t : State}
    (ht : exec i s = .next t) : NoNegativeAck t t.apiStatus := by
  cases i with
  | relayPing id => cases ht; exact noNegativeAck_plainMessage (by simp) _ _ s
  | relayVersion id => cases ht; exact noNegativeAck_versionMessage _ s
  | relayReset id => cases ht; exact noNegativeAck_plainMessage (by simp) _ _ s
  | relaySet id on => cases ht; exact noNegativeAck_plainMessage (by simp) _ _ s
  | motorPing => cases ht; exact noNegativeAck_plainMessage (by simp) _ _ s
  | motorVersion => cases ht; exact noNegativeAck_versionMessage _ s
  | motorReset => cases ht; exact noNegativeAck_plainMessage (by simp) _ _ s
  | motorStatus =>
    cases ht; exact noNegativeAck_motorStatusOf (noNegativeAck_transact (by simp) _ _ s)
  | motorStopAll => cases ht; exact noNegativeAck_plainMessage (by simp) _ _ s
  | motorRun row col => exact noNegativeAck_execMotorRun ht
  | motorPairRun row c1 c2 => exact noNegativeAck_execMotorPairRun ht
  | motorOptoLineStatus =>
    cases ht; exact noNegativeAck_optoLineOf (noNegativeAck_transact (by simp) _ _ s)
  | globalReset => cases ht; exact noNegativeAck_plainMessage (by simp) _ _ s
  | _ => cases hmessage

/-- Settles O31: a legal operation writes STATUS itself, and the STATUS and the outcome of a message
are those of its PACK, its request or its ending. -/
theorem negativeAckIsNeverRaised : Obligations.NegativeAckIsNeverRaised :=
  fun _ _ _ ht => ⟨fun hlegal => exec_status_ne_negativeAck hlegal ht,
    fun hmessage => noNegativeAck_exec hmessage ht⟩

/-! ### A transport failure -/

theorem failureKind_ne_kindOk {f : Reply} (hf : ∀ raw, f ≠ .bytes raw) :
    failureKind f ≠ kindOk := by
  cases f with
  | bytes raw => exact absurd rfl (hf raw)
  | purgeFails => nofun
  | writeFails => nofun
  | readFails => nofun

theorem optoLineOf_fails {x : State × ErrorKind} (h : x.2 ≠ kindOk) :
    optoLineOf x = { x.1 with apiStatus := x.2, optoLine := 0 } := if_neg h

/-- "Stop on failure" for a message without data that makes `ending` of its request, where `zeroed`
is what `ending` comes to once the request has failed. -/
theorem exec_of_transportFailure {i : Instr} {c m : Byte} {frame : List Byte}
    {ending zeroed : State × ErrorKind → State} {s : State} {f : Reply} {rest : List Reply}
    {n : Nat} (hm : Meets s f rest n) (hf : ∀ raw, f ≠ .bytes raw)
    (hframe : frameBytes c m [] = frame)
    (hexec : exec i s = .next (ending (transact c m [] s)))
    (hending : ∀ {x : State × ErrorKind}, x.2 ≠ kindOk → ending x = zeroed x) :
    ∃ u, ExchangeFailed c m [] frame (handedOver f) rest n s u ∧
      exec i s = .next (zeroed (u, failureKind f)) := by
  subst hframe
  obtain ⟨u, hu, hx⟩ := transact_exchangeFailed (d := []) (by simp) c m hm hf
  rw [hx, hending (failureKind_ne_kindOk hf)] at hexec
  exact ⟨u, hu, hexec⟩

/-- The failures of R60 by the step that fails: the kind each ends with, and whether the frame was
handed over before it (log 14). -/
theorem failureKind_and_handedOver {f : Reply} {k : ErrorKind} {handed : Bool}
    (h : f = .purgeFails ∧ k = .purgeFailed ∧ handed = false ∨
      f = .writeFails ∧ k = .writeFailed ∧ handed = true ∨
      f = .readFails ∧ k = .readFailed ∧ handed = true) :
    (∀ raw, f ≠ .bytes raw) ∧ failureKind f = k ∧ handedOver f = handed := by
  rcases h with ⟨rfl, rfl, rfl⟩ | ⟨rfl, rfl, rfl⟩ | ⟨rfl, rfl, rfl⟩ <;>
    exact ⟨nofun, rfl, rfl⟩

/-- Settles O47: each is a request without data and an ending that, on a failed request, writes the
outcome and zeroes its own outputs. -/
theorem transportFailureZeroesOutputs : Obligations.TransportFailureZeroesOutputs := by
  intro s f rest n k handed hm hfailure
  obtain ⟨hf, rfl, rfl⟩ := failureKind_and_handedOver hfailure
  exact ⟨exec_of_transportFailure hm hf (by decide) rfl versionOf_fails,
    exec_of_transportFailure hm hf (by decide) rfl versionOf_fails,
    exec_of_transportFailure hm hf (by decide) rfl versionOf_fails,
    exec_of_transportFailure hm hf (by decide) rfl motorStatusOf_fails,
    exec_of_transportFailure hm hf (by decide) rfl optoLineOf_fails⟩

end Sys2Proof.Machine
end

section
/-! SUPPORT. The family of 70_reset_and_hazards.md: reset over whatever is in progress (R260), and one
operation at a time (R263, I6): what the host's acts answer, and that reset, every step and every act
keep it. -/

namespace Sys2Proof.Machine

/-! ### Reset -/

/-- Settles O4: the reset line wins over an operation in progress, and an empty buffer reads zero at
every index. -/
theorem resetLineClearsBlockAndAbandonsOperation :
    Obligations.ResetLineClearsBlockAndAbandonsOperation := by
  intro s hrst
  refine ⟨assertReset s, step_reset hrst, rfl, rfl, ?frame, rfl, ?resp, rfl, rfl, rfl, rfl, rfl, rfl,
    rfl⟩
  case frame => exact fun i _ => Memory.read_nil i
  case resp => exact fun i _ => Memory.read_nil i

/-! ### What the host's acts answer -/

/-- The host may not issue while anything is in progress or waits. -/
theorem hostMayIssue_eq_false_iff (s : State) :
    hostMayIssue s = false ↔ s.inFlight ≠ none ∨ s.req = true ∨ s.call ≠ none := by
  rw [← Bool.not_eq_true, hostMayIssue_iff]
  simp only [not_and_or, Bool.not_eq_false, ne_eq]

theorem requestOperation_of_mayIssue {s : State} (h : hostMayIssue s = true) (p : Ports) :
    requestOperation p s = .next { s with ports := p, req := true } := if_pos h

theorem requestOperation_early {s : State} (h : hostMayIssue s = false) (p : Ports) :
    requestOperation p s = .fault .overlappingRequest := if_neg (Bool.eq_false_iff.1 h)

theorem callMessage_of_mayIssue {s : State} (h : hostMayIssue s = true) (c : MsgCall) :
    callMessage c s = .next { s with call := some c } := if_pos h

theorem callMessage_early {s : State} (h : hostMayIssue s = false) (c : MsgCall) :
    callMessage c s = .fault .overlappingRequest := if_neg (Bool.eq_false_iff.1 h)

theorem sampleRequest_overlapping {s : State} (hrst : s.rst = false) (ho : overlapping s = true) :
    sampleRequest s = .fault .overlappingRequest := by
  rw [sampleRequest, if_neg (Bool.eq_false_iff.1 hrst), if_pos ho]

/-- With REQ low sampling takes no operands. -/
theorem sampleRequest_unrequested {s : State} (hrst : s.rst = false) (ho : overlapping s = false)
    (hreq : s.req = false) : sampleRequest s = .next s := by
  rw [sampleRequest, if_neg (Bool.eq_false_iff.1 hrst), if_neg (Bool.eq_false_iff.1 ho),
    if_neg (Bool.eq_false_iff.1 hreq)]

/-- Settles O14: `hostMayIssue` decides the two acts that issue, and `overlapping` decides sampling. -/
theorem overlappingIssueHasNoStep : Obligations.OverlappingIssueHasNoStep := by
  intro s p c
  refine ⟨fun h => ?early, fun h => ?free, fun hrst h => ?overlap, fun hrst hfl hreq hcall => ?stays⟩
  case early =>
    have hno := (hostMayIssue_eq_false_iff s).2 h
    exact ⟨requestOperation_early hno p, callMessage_early hno c⟩
  case free =>
    have hmay := (hostMayIssue_iff s).2 h
    exact ⟨requestOperation_of_mayIssue hmay p, callMessage_of_mayIssue hmay c⟩
  case overlap => exact sampleRequest_overlapping hrst ((overlapping_iff s).2 h)
  case stays =>
    have halone : OneAtATime s := ⟨fun _ => ⟨hreq, hcall⟩, fun _ => hcall⟩
    exact sampleRequest_unrequested hrst ((oneAtATime_iff s).1 halone) hreq

/-! ### What is pending

R263 looks at three fields, and no instruction's meaning writes any of them. -/

/-- The operation in progress, REQ and the call that waits. -/
def pending (s : State) : Option Instr × Bool × Option MsgCall := (s.inFlight, s.req, s.call)

@[simp] theorem pending_runEncode (c m : Byte) (d : List Byte) (s : State) :
    pending (runEncode c m d s) = pending s := by
  rcases Nat.lt_or_ge 250 d.length with h | h
  · rw [runEncode_tooLong h]; rfl
  · rw [runEncode_fits h]; rfl

@[simp] theorem pending_runDecode (ctx : Byte) (raw : List Byte) (s : State) :
    pending (runDecode ctx raw s) = pending s := by
  rw [runDecode_frame]; rfl

@[simp] theorem pending_runPack (row col : Byte) (s : State) :
    pending (runPack row col s) = pending s := by
  cases h : coordInRange row col with
  | true => rw [runPack_inRange h]; rfl
  | false => rw [runPack_outOfRange h]; rfl

@[simp] theorem pending_issueEncode (c m : Byte) (d : List Byte) (s : State) :
    pending (issueEncode c m d s) = pending s := pending_runEncode c m d _

@[simp] theorem pending_issueDecode (ctx : Byte) (s : State) :
    pending (issueDecode ctx s) = pending s := pending_runDecode ctx _ _

@[simp] theorem pending_issuePack (row col : Byte) (s : State) :
    pending (issuePack row col s) = pending s := pending_runPack row col _

@[simp] theorem pending_unpackAll (l : List Byte) (s : State) :
    pending (unpackAll l s).2 = pending s := by
  rw [unpackAll_state]; rfl

@[simp] theorem pending_nextReply (s : State) : pending (nextReply s).2 = pending s := by
  rcases nextReply_cases s with ⟨r, rest, _, e⟩ | ⟨_, e⟩ <;> rw [e] <;> rfl

@[simp] theorem pending_exchange (s : State) : pending (exchange s).1 = pending s := by
  have hnext := pending_nextReply s
  rcases exchange_cases s with ⟨raw, _, e⟩ | ⟨_, e⟩ | ⟨_, e⟩ | ⟨_, e⟩ <;> rw [e] <;> exact hnext

@[simp] theorem pending_transact (c m : Byte) (d : List Byte) (s : State) :
    pending (transact c m d s).1 = pending s := by
  dsimp only [transact]
  split
  · split <;> simp only [pending_issueDecode, pending_exchange, pending_issueEncode]
  · exact pending_issueEncode c m d s

/-! ### The endings of the messages -/

@[simp] theorem pending_versionOf (x : State × ErrorKind) :
    pending (versionOf x) = pending x.1 := by
  by_cases h : x.2 = kindOk
  · rw [versionOf_ok h]; rfl
  · rw [versionOf_fails h]; rfl

@[simp] theorem pending_motorStatusOf (x : State × ErrorKind) :
    pending (motorStatusOf x) = pending x.1 := by
  rcases motorStatusOf_cases x with ⟨_, e⟩ | ⟨_, _, e⟩ | ⟨_, _, _, e⟩ | ⟨_, _, _, e⟩ <;> rw [e]
  · rfl
  · rfl
  · rfl
  · exact pending_unpackAll _ x.1

@[simp] theorem pending_optoLineOf (x : State × ErrorKind) :
    pending (optoLineOf x) = pending x.1 := by
  rcases optoLineOf_cases x with ⟨_, e⟩ | ⟨_, _, e⟩ | ⟨_, _, e⟩ <;> rw [e] <;> rfl

@[simp] theorem pending_plainMessage (c m : Byte) (d : List Byte) (s : State) :
    pending (plainMessage c m d s) = pending s := pending_transact c m d s

@[simp] theorem pending_versionMessage (c : Byte) (s : State) :
    pending (versionMessage c s) = pending s :=
  (pending_versionOf _).trans (pending_transact c _ _ s)

theorem pending_execMotorRun {row col : Byte} {s t : State}
    (ht : execMotorRun row col s = .next t) : pending t = pending s := by
  cases hin : coordInRange row col with
  | true =>
    cases (execMotorRun_inGrid hin s).symm.trans ht
    rw [pending_plainMessage, pending_issuePack]
  | false =>
    cases (execMotorRun_outside hin s).symm.trans ht
    exact pending_issuePack row col s

theorem pending_execMotorPairRun {row c1 c2 : Byte} {s t : State}
    (ht : execMotorPairRun row c1 c2 s = .next t) : pending t = pending s := by
  cases hin1 : coordInRange row c1 with
  | false =>
    cases (execMotorPairRun_firstOutside hin1 c2 s).symm.trans ht
    exact pending_issuePack row c1 s
  | true =>
    cases hin2 : coordInRange row c2 with
    | true =>
      cases (execMotorPairRun_inGrid hin1 hin2 s).symm.trans ht
      rw [pending_plainMessage, pending_issuePack, pending_issuePack]
    | false =>
      cases (execMotorPairRun_secondOutside hin1 hin2 s).symm.trans ht
      exact (pending_issuePack row c2 _).trans (pending_issuePack row c1 s)

/-- An instruction neither issues nor takes a request: only the step around it does. -/
theorem pending_exec {i : Instr} {s t : State} (ht : exec i s = .next t) : pending t = pending s := by
  cases i with
  | encode c m d => cases ht; exact pending_runEncode c m d s
  | decode ctx raw => cases ht; exact pending_runDecode ctx raw s
  | xorfold l => cases ht; rfl
  | pack row col => cases ht; exact pending_runPack row col s
  | unpack b => cases ht; rfl
  | reserved101 => cases ht; rfl
  | reserved110 => cases ht; rfl
  | reserved111 => cases ht; rfl
  | relayPing id => cases ht; exact pending_plainMessage _ _ _ s
  | relayVersion id => cases ht; exact pending_versionMessage _ s
  | relayReset id => cases ht; exact pending_plainMessage _ _ _ s
  | relaySet id on => cases ht; exact pending_plainMessage _ _ _ s
  | motorPing => cases ht; exact pending_plainMessage _ _ _ s
  | motorVersion => cases ht; exact pending_versionMessage _ s
  | motorReset => cases ht; exact pending_plainMessage _ _ _ s
  | motorStatus => cases ht; exact (pending_motorStatusOf _).trans (pending_transact _ _ _ s)
  | motorStopAll => cases ht; exact pending_plainMessage _ _ _ s
  | motorRun row col => exact pending_execMotorRun ht
  | motorPairRun row c1 c2 => exact pending_execMotorPairRun ht
  | motorOptoLineStatus => cases ht; exact (pending_optoLineOf _).trans (pending_transact _ _ _ s)
  | globalReset => cases ht; exact pending_plainMessage _ _ _ s

/-! ### One operation at a time -/

/-- One operation at a time is a matter of what is pending alone. -/
theorem OneAtATime.of_pending_eq {s t : State} (h : OneAtATime s) (heq : pending t = pending s) :
    OneAtATime t := by
  obtain ⟨hfl, hreq, hcall⟩ :
      t.inFlight = s.inFlight ∧ t.req = s.req ∧ t.call = s.call := by simpa [pending] using heq
  constructor
  · rw [hfl, hreq, hcall]; exact h.inFlightAlone
  · rw [hreq, hcall]; exact h.reqAlone

/-- With nothing in progress only REQ and a call can meet. -/
theorem oneAtATime_of_notInFlight {s : State} (hfl : s.inFlight = none)
    (hreq : s.req = true → s.call = none) : OneAtATime s := ⟨fun h => absurd hfl h, hreq⟩

theorem oneAtATime_reset : OneAtATime State.reset := oneAtATime_of_notInFlight rfl fun _ => rfl

theorem oneAtATime_accept (s : State) : OneAtATime (accept s) :=
  oneAtATime_of_notInFlight rfl fun _ => rfl

/-- Reset abandons what is in progress; the host's REQ and call stay (log 11). -/
theorem oneAtATime_assertReset {s : State} (h : OneAtATime s) : OneAtATime (assertReset s) :=
  oneAtATime_of_notInFlight rfl h.reqAlone

/-- Sampling turns the request that stands alone into the operation in progress. -/
theorem oneAtATime_sampled {s : State} (h : OneAtATime s) (hreq : s.req = true) :
    OneAtATime (sampled s) := ⟨fun _ => ⟨rfl, h.reqAlone hreq⟩, nofun⟩

theorem oneAtATime_step {s t : State} (h : OneAtATime s) (ht : step s = .next t) :
    OneAtATime t := by
  rcases step_next_cases ht with ⟨_, rfl⟩ | ⟨_, _, _, rfl⟩ | ⟨_, i, hexec, _⟩
  · exact oneAtATime_assertReset h
  · exact h
  · exact (oneAtATime_accept s).of_pending_eq (pending_exec hexec)

theorem oneAtATime_requestOperation {p : Ports} {s t : State} (ht : requestOperation p s = .next t) :
    OneAtATime t := by
  obtain ⟨hmay, rfl⟩ := requestOperation_next ht
  obtain ⟨hfl, _, hcall⟩ := (hostMayIssue_iff s).1 hmay
  exact oneAtATime_of_notInFlight hfl fun _ => hcall

theorem oneAtATime_callMessage {c : MsgCall} {s t : State} (ht : callMessage c s = .next t) :
    OneAtATime t := by
  obtain ⟨hmay, rfl⟩ := callMessage_next ht
  obtain ⟨hfl, hlow, _⟩ := (hostMayIssue_iff s).1 hmay
  exact oneAtATime_of_notInFlight hfl fun hreq => absurd hreq (Bool.eq_false_iff.1 hlow)

theorem oneAtATime_sampleRequest {s t : State} (h : OneAtATime s)
    (ht : sampleRequest s = .next t) : OneAtATime t := by
  rcases sampleRequest_next ht with ⟨_, rfl⟩ | ⟨_, _, hreq, rfl⟩ | ⟨_, _, _, rfl⟩
  · exact oneAtATime_assertReset h
  · exact oneAtATime_sampled h hreq
  · exact h

/-! ### No step is stuck -/

theorem exec_ne_fault (i : Instr) (s : State) (f : Fault) : exec i s ≠ .fault f := by
  obtain ⟨t, ht, _⟩ := everyInstructionCompletes i s
  rw [ht]; nofun

/-- Two requests at once is the one thing a fetch cannot answer. -/
theorem fetch_ne_overlap {s : State} (h : OneAtATime s) : fetch s ≠ .overlap := by
  cases hreq : s.req with
  | true => rw [fetch_operation hreq (h.reqAlone hreq)]; nofun
  | false => cases hcall : s.call <;> simp [fetch, hreq, hcall]

/-- A step faults on an overlap alone: the reset line, an idle machine and a rejected call do not, and
every instruction completes. -/
theorem step_ne_fault {s : State} (h : OneAtATime s) (f : Fault) :
    step s ≠ .fault f := by
  cases hrst : s.rst with
  | true => rw [step_reset hrst]; nofun
  | false =>
    cases hfl : s.inFlight with
    | some i =>
      obtain ⟨hreq, hcall⟩ := h.inFlightAlone (by rw [hfl]; nofun)
      rw [step_inFlight hrst hfl (by simp [requested, hreq, hcall])]
      exact exec_ne_fault i _ f
    | none =>
      cases hfetch : fetch s with
      | idle => rw [step_idle hrst hfl hfetch]; nofun
      | overlap => exact absurd hfetch (fetch_ne_overlap h)
      | word w =>
        cases hdecode : decode w with
        | ok i => rw [step_word hrst hfl hfetch hdecode]; exact exec_ne_fault i _ f
        | error e => rw [step_rejected hrst hfl hfetch hdecode]; nofun

/-- Settles O15: reset has nothing pending, each step and each act keeps one at a time, and a step
faults on an overlap alone; the reset line and a reply touch nothing that is pending. -/
theorem requestsStayOneAtATime : Obligations.RequestsStayOneAtATime :=
  ⟨oneAtATime_reset, fun _ h =>
    ⟨step_ne_fault h, fun _ => oneAtATime_step h, fun _ _ => oneAtATime_requestOperation,
      fun _ _ => oneAtATime_callMessage, fun _ => oneAtATime_sampleRequest h, h.of_pending_eq rfl,
      fun _ => h.of_pending_eq rfl⟩⟩

end Sys2Proof.Machine
end

section
/-! SUPPORT. The decoder as the inverse of the encoder (R70, R84, R190), and the step around one
instruction: what the decoder reads of a request is what the step runs (R38, R39), what it rejects
is refused by name (I8), and a request over another has no step (R263). -/

namespace Sys2Proof.Machine

/-! ### Decode after encode -/

theorem decode_encode_encode (c m : Byte) {d : List Byte} (h : d.length ≤ 255) :
    decode (encode (.encode c m d)) = .ok (.encode c m d) := by
  rw [encode, decode, decodeOperation_encode rfl, portData_driveEncode c m d h]; rfl

/-- Driving OP and the context leaves the bytes received before. -/
theorem decode_encode_decode (ctx : Byte) {raw : List Byte} (h : raw.length ≤ 255) :
    decode (encode (.decode ctx raw)) = .ok (.decode ctx raw) := by
  have hrx : portRx (driveDecode ctx (driveReceived raw Ports.zero)) = raw :=
    portRx_driveReceived raw h Ports.zero
  rw [encode, decode, decodeOperation_decode rfl, hrx]; rfl

theorem decode_encode_xorfold {l : List Byte} (h : l.length ≤ 255) :
    decode (encode (.xorfold l)) = .ok (.xorfold l) := by
  have hrx : portRx (driveXorfold (driveReceived l Ports.zero)) = l :=
    portRx_driveReceived l h Ports.zero
  rw [encode, decode, decodeOperation_xorfold rfl, hrx]

/-- The row of MOTOR_RUN, whatever the argument bytes. -/
theorem decodeMessage_motorRunKey {c : MsgCall} (h : c.key = 0x300613#24) :
    decodeMessage c = .ok (.motorRun c.arg0 c.arg1) := by rw [decodeMessage, h]; rfl

/-- The row of MOTOR_PAIR_RUN, whatever the argument bytes. -/
theorem decodeMessage_motorPairRunKey {c : MsgCall} (h : c.key = 0x300713#24) :
    decodeMessage c = .ok (.motorPairRun c.arg0 c.arg1 c.arg2) := by rw [decodeMessage, h]; rfl

/-- Settles O6: the byte lists come back from the input arrays they were driven into, being no
longer than the 8-bit counts can say; every other operand has a port or an argument byte of its own,
and the key of a message, of either relay where it is a relay's, is found at its row of the table. -/
theorem decodeAfterEncodeIsIdentity : Obligations.DecodeAfterEncodeIsIdentity := by
  intro i hwf
  cases i with
  | encode c m d => exact decode_encode_encode c m (of_decide_eq_true hwf)
  | decode ctx raw => exact decode_encode_decode ctx (of_decide_eq_true hwf)
  | xorfold l => exact decode_encode_xorfold (of_decide_eq_true hwf)
  | pack row col => rfl
  | unpack b => rfl
  | reserved101 => rfl
  | reserved110 => rfl
  | reserved111 => rfl
  | relayPing id => obtain rfl | rfl := id.eq_zero_or_eq_one <;> rfl
  | relayVersion id => obtain rfl | rfl := id.eq_zero_or_eq_one <;> rfl
  | relayReset id => obtain rfl | rfl := id.eq_zero_or_eq_one <;> rfl
  | relaySet id on => obtain rfl | rfl := id.eq_zero_or_eq_one <;> cases on <;> rfl
  | motorPing => rfl
  | motorVersion => rfl
  | motorReset => rfl
  | motorStatus => rfl
  | motorStopAll => rfl
  | motorRun row col => exact decodeMessage_motorRunKey rfl
  | motorPairRun row c1 c2 => exact decodeMessage_motorPairRunKey rfl
  | motorOptoLineStatus => rfl
  | globalReset => rfl

/-! ### What the decoder answers -/

theorem decodeRelaySet_bad {c : MsgCall} (h0 : c.arg0 ≠ 0x00#8) (h1 : c.arg0 ≠ 0x01#8) :
    decodeRelaySet c = .error (.badRelaySwitch c.arg0) := by
  rw [decodeRelaySet, if_neg h0, if_neg h1]

theorem decodeRelaySet_ok {c : MsgCall} {i : Instr} (h : decodeRelaySet c = .ok i) :
    ∃ on, i = .relaySet (keyRelayId c.key) on := by
  unfold decodeRelaySet at h
  split at h
  · cases h; exact ⟨false, rfl⟩
  · split at h
    · cases h; exact ⟨true, rfl⟩
    · cases h

theorem decodeMessage_unlisted {c : MsgCall}
    (h : ∀ r ∈ messageTable, c.key &&& r.mask ≠ r.pattern) :
    decodeMessage c = .error (.unknownMessage c.key) := by
  rw [decodeMessage, List.find?_eq_none.2 fun r hr => by simpa using h r hr]

/-- An instruction that a call decodes to was built by a row of the table. -/
theorem decodeMessage_ok {c : MsgCall} {i : Instr} (h : decodeMessage c = .ok i) :
    ∃ r ∈ messageTable, r.build c = .ok i := by
  unfold decodeMessage at h
  split at h
  next r hfind => exact ⟨r, List.mem_of_find?_eq_some hfind, h⟩
  next => cases h

/-- Both relays' keys are of RELAY_SET's row, whose mask leaves out the bit of the id. -/
theorem decodeMessage_relaySetKey {c : MsgCall} (h : c.key = 0x260611#24 ∨ c.key = 0x270611#24) :
    decodeMessage c = decodeRelaySet c := by
  rcases h with h | h <;> rw [decodeMessage, h] <;> rfl

theorem length_portData_le (p : Ports) : (portData p).length ≤ Config.bufSize := by
  rw [length_portData]; exact Nat.le_of_lt_succ p.dlen.isLt

theorem length_portRx_le (p : Ports) : (portRx p).length ≤ Config.bufSize := by
  rw [length_portRx]; exact Nat.le_of_lt_succ p.rxCount.isLt

/-- An 8-bit count samples no more bytes than an input array has (R35, R36). -/
theorem wellFormed_decodeOperation (p : Ports) : wellFormed (decodeOperation p) = true := by
  rcases op_cases p.op with h | h | h | h | h | h | h | h
  · rw [decodeOperation_encode h]; exact decide_eq_true (length_portData_le p)
  · rw [decodeOperation_decode h]; exact decide_eq_true (length_portRx_le p)
  · rw [decodeOperation_xorfold h]; exact decide_eq_true (length_portRx_le p)
  · rw [decodeOperation_pack h]; rfl
  · rw [decodeOperation_unpack h]; rfl
  · rw [decodeOperation_reserved101 h]; rfl
  · rw [decodeOperation_reserved110 h]; rfl
  · rw [decodeOperation_reserved111 h]; rfl

/-- No row builds an instruction with a byte list. RELAY_SET's row, the fourth, is the one that may
build none. -/
theorem wellFormed_build {r : MsgRow} (hr : r ∈ messageTable) {c : MsgCall} {i : Instr}
    (h : r.build c = .ok i) : wellFormed i = true := by
  simp only [messageTable, List.mem_cons, List.not_mem_nil, or_false] at hr
  rcases hr with rfl | rfl | rfl | rfl | hmotor
  · cases h; rfl
  · cases h; rfl
  · cases h; rfl
  · obtain ⟨on, rfl⟩ := decodeRelaySet_ok h; rfl
  · rcases hmotor with rfl | rfl | rfl | rfl | rfl | rfl | rfl | rfl | rfl <;> cases h <;> rfl

/-- Settles O7: on the ports the counts bound the byte lists, and a message has none. -/
theorem decodedInstructionIsWellFormed : Obligations.DecodedInstructionIsWellFormed := by
  intro w i h
  cases w with
  | operation p => cases h; exact wellFormed_decodeOperation p
  | message c =>
    obtain ⟨r, hr, hbuild⟩ := decodeMessage_ok h
    exact wellFormed_build hr hbuild

/-! ### A step runs, refuses or faults on what is requested -/

/-- A call with REQ low asks for the message. -/
theorem fetch_message {s : State} {c : MsgCall} (hreq : s.req = false) (hcall : s.call = some c) :
    fetch s = .word (.message c) := by simp [fetch, hreq, hcall]

/-- Settles O10: the step refuses the call for the decoder's own reason. -/
theorem unknownMessageCallIsRefused : Obligations.UnknownMessageCallIsRefused := by
  intro s c hrst hfl hreq hcall
  have hfetch := fetch_message hreq hcall
  refine ⟨fun hnorow => ?unlisted, fun hkey h0 h1 => ?badSwitch⟩
  case unlisted => exact step_rejected hrst hfl hfetch (decodeMessage_unlisted hnorow)
  case badSwitch =>
    exact step_rejected hrst hfl hfetch
      ((decodeMessage_relaySetKey hkey).trans (decodeRelaySet_bad h0 h1))

theorem fetch_placeRequest (s : State) (w : Encoded) : fetch (placeRequest s w) = .word w := by
  cases w <;> rfl

/-- What a placed request decodes to is what the next step runs. -/
theorem step_placeRequest {w : Encoded} {i : Instr} (h : decode w = .ok i) (s : State) :
    step (placeRequest s w) = exec i (accept (placeRequest s w)) := by
  have hidle : (placeRequest s w).rst = false ∧ (placeRequest s w).inFlight = none := by
    cases w <;> exact ⟨rfl, rfl⟩
  obtain ⟨hrst, hfl⟩ := hidle
  exact step_word hrst hfl (fetch_placeRequest s w) h

/-- Settles O12: the encoded instruction decodes to itself, and so the step runs it. -/
theorem placedInstructionIsWhatTheStepRuns : Obligations.PlacedInstructionIsWhatTheStepRuns :=
  fun s i hwf => step_placeRequest (decodeAfterEncodeIsIdentity i hwf) s

/-- Settles O11: the three requests that stand alone, each run on the accepted state. -/
theorem stepRunsTheRequestedInstruction : Obligations.StepRunsTheRequestedInstruction := by
  intro s hrst
  refine ⟨fun hfl hreq hcall => ?operation, fun c i hfl hreq hcall hdecode => ?message,
    fun i hfl hreq hcall => ?inProgress⟩
  case operation => exact step_operation hrst hfl hcall hreq
  case message => exact step_word hrst hfl (fetch_message hreq hcall) hdecode
  case inProgress => exact step_inFlight hrst hfl (by simp [requested, hreq, hcall])

/-- Settles O13: the two forms of an overlap, neither of which a step takes. -/
theorem overlappingRequestIsStuck : Obligations.OverlappingRequestIsStuck :=
  fun s hrst h => step_overlapping hrst ((overlapping_iff s).2 h)

/-! ### A request seen halfway

Sampling lowers DONE, and an operation raises it without having looked at it. -/

theorem runEncode_setDone (c m : Byte) (d : List Byte) (b : Bool) (s : State) :
    runEncode c m d { s with done := b } = runEncode c m d s := by
  rcases Nat.lt_or_ge 250 d.length with h | h
  · rw [runEncode_tooLong h, runEncode_tooLong h]
  · rw [runEncode_fits h, runEncode_fits h]

theorem runDecode_setDone (ctx : Byte) (raw : List Byte) (b : Bool) (s : State) :
    runDecode ctx raw { s with done := b } = runDecode ctx raw s := by
  by_cases h : decodeStatus ctx raw = statusOk
  · rw [runDecode_ok h, runDecode_ok h]
  · rw [runDecode_fails h, runDecode_fails h]

theorem runPack_setDone (row col : Byte) (b : Bool) (s : State) :
    runPack row col { s with done := b } = runPack row col s := by
  cases h : coordInRange row col with
  | true => rw [runPack_inRange h, runPack_inRange h]
  | false => rw [runPack_outOfRange h, runPack_outOfRange h]

/-- A block operation completes alike whatever DONE was. -/
theorem exec_setDone {i : Instr} (hop : isOperation i = true) (b : Bool) (s : State) :
    exec i { s with done := b } = exec i s := by
  cases i with
  | encode c m d => exact congrArg Host.Outcome.next (runEncode_setDone c m d b s)
  | decode ctx raw => exact congrArg Host.Outcome.next (runDecode_setDone ctx raw b s)
  | xorfold l => rfl
  | pack row col => exact congrArg Host.Outcome.next (runPack_setDone row col b s)
  | unpack b => rfl
  | reserved101 => rfl
  | reserved110 => rfl
  | reserved111 => rfl
  | _ => cases hop

theorem isOperation_decodeOperation (p : Ports) : isOperation (decodeOperation p) = true := by
  unfold decodeOperation; split <;> rfl

/-- A lone request is sampled. -/
theorem sampleRequest_operation {s : State} (hrst : s.rst = false) (hfl : s.inFlight = none)
    (hreq : s.req = true) (hcall : s.call = none) : sampleRequest s = .next (sampled s) := by
  simp [sampleRequest, overlapping, hrst, hfl, hreq, hcall]

/-- Completing the sampled operation is the whole request's step: the accepted states differ in DONE
alone. -/
theorem step_sampled {s : State} (hrst : s.rst = false) (hfl : s.inFlight = none)
    (hreq : s.req = true) (hcall : s.call = none) : step (sampled s) = step s := by
  have hlow : requested (sampled s) = false := by simp [requested, sampled, hcall]
  calc step (sampled s)
      = exec (decodeOperation s.ports) { accept s with done := false } :=
        step_inFlight (s := sampled s) hrst rfl hlow
    _ = exec (decodeOperation s.ports) (accept s) :=
        exec_setDone (isOperation_decodeOperation s.ports) false (accept s)
    _ = step s := (step_operation hrst hfl hcall hreq).symm

/-- Settles O18: the operation completes, and from the sampled state it completes alike. -/
theorem sampledRequestCompletesAlike : Obligations.SampledRequestCompletesAlike := by
  intro s hrst hfl hreq hcall
  obtain ⟨t, ht, _⟩ := everyInstructionCompletes (decodeOperation s.ports) (accept s)
  have hstep : step s = .next t := (step_operation hrst hfl hcall hreq).trans ht
  exact ⟨t, sampled s, hstep, sampleRequest_operation hrst hfl hreq hcall, rfl, rfl, rfl,
    (step_sampled hrst hfl hreq hcall).trans hstep⟩

/-! ### Reset -/

/-- Settles O2: at reset every buffer and list is empty and every register zero. -/
theorem invariantHoldsAtReset : Obligations.InvariantHoldsAtReset where
  frameWf := Memory.wf_nil
  respWf := Memory.wf_nil
  dataInWf := Memory.wf_nil
  rxInWf := Memory.wf_nil
  statusLegal := toNat_statusOk_le
  apiStatusLegal := legalKind_status toNat_statusOk_le
  frameValid := .inl rfl
  coordLegal := .inl rfl
  gridLegal := nofun
  currentLegal := Nat.zero_le 500
  writtenValid := nofun
  inFlightWf := nofun

/-- Settles O5: the step is the reset, which is `State.reset` but for the fields named. -/
theorem resetLineKeepsInputsAndMessageLayer : Obligations.ResetLineKeepsInputsAndMessageLayer :=
  fun s hrst => ⟨assertReset s, step_reset hrst, rfl⟩

end Sys2Proof.Machine
end
